-- ==== Sys2Proof/Word.lean ====
section
/-! DEFINITION. The word and the byte of rvm (00_scope.md R7). -/

namespace Sys2Proof

/-- A word is 32 bits (R7): a register, a stack or heap cell, a program word, `pc`, `sp`, `hwm`. -/
abbrev Word := BitVec 32

/-- A byte of the object stream (R37). -/
abbrev Byte := BitVec 8

end Sys2Proof
end

