-- ==== Sys2Proof/Machine/Flags.lean ====
section
/-! DEFINITION. The ALU: the results of 42_arithmetic.md (R140 to R149, R151), the flags of `cmp`
(43_compare_and_jump.md R160) and the conditions of the jumps (R172). -/

namespace Sys2Proof.Machine

/-- `add`: the sum modulo 2^32 (R140). -/
def aluAdd (a b : Word) : Word := a + b

/-- `sub`: the difference modulo 2^32 (R141). -/
def aluSub (a b : Word) : Word := a - b

/-- `mul`: the low word of the product (R142). -/
def aluMul (a b : Word) : Word := a * b

/-- `div` for a nonzero divisor: the unsigned quotient (R143). -/
def aluDiv (a b : Word) : Word := a / b

/-- `or`, bit by bit (R144). -/
def aluOr (a b : Word) : Word := a ||| b

/-- `and`, bit by bit (R145). -/
def aluAnd (a b : Word) : Word := a &&& b

/-- `xor`, bit by bit (R146). -/
def aluXor (a b : Word) : Word := a ^^^ b

/-- `shl`: the count is the whole word; 32 or more gives 0 (R147). -/
def aluShl (a b : Word) : Word := if b.toNat ≥ 32 then 0 else a <<< b.toNat

/-- `shr`: logical; the count is the whole word; 32 or more gives 0 (R148). -/
def aluShr (a b : Word) : Word := if b.toNat ≥ 32 then 0 else a >>> b.toNat

/-- `not`: every bit inverted (R149). -/
def aluNot (a : Word) : Word := ~~~a

/-- `Z` after `cmp a b` (R160). -/
def cmpZ (a b : Word) : Bool := a == b

/-- `N` after `cmp a b`: the top bit of the wrapped difference (R160). -/
def cmpN (a b : Word) : Bool := (a - b).msb

/-- The condition of `jmp` (R161). -/
def condJmp (_z _n : Bool) : Bool := true

/-- The condition of `je` (R162, R172). -/
def condJe (z _n : Bool) : Bool := z

/-- The condition of `jl` (R163, R172). -/
def condJl (_z n : Bool) : Bool := n

/-- The condition of `jle` (R164, R172). -/
def condJle (z n : Bool) : Bool := z || n

/-- The condition of `jne` (R165, R172). -/
def condJne (z _n : Bool) : Bool := !z

/-- The condition of `jnl` (R166, R172). -/
def condJnl (_z n : Bool) : Bool := !n

/-- The condition of `jnle` (R167, R172). -/
def condJnle (z n : Bool) : Bool := !z && !n

end Sys2Proof.Machine
end

