-- ==== Sys2Proof/Syntax.lean ====
section
/-! DEFINITION. The logical instruction record of the codec: opcodes, operand slots, instructions
(40_codec.md R80, 30_encoding.md R53, R56). -/

namespace Sys2Proof

/-- The 32 mnemonics of 30_encoding.md R56, a closed set. -/
inductive Opcode where
  | add
  | sub
  | mul
  | div
  | or
  | and
  | xor
  | shl
  | shr
  | not
  | cmp
  | jmp
  | je
  | jl
  | jle
  | jne
  | jnl
  | jnle
  | call
  | ret
  | push
  | pop
  | swap
  | alloc
  | free
  | entry
  | hlt
  | exp0
  | exp1
  | exp2
  | exp3
  | exp4
  deriving DecidableEq, Repr

/-- The kind of a present slot (R80): small immediate, large immediate, register. -/
inductive Kind where
  | sconst
  | lconst
  | reg
  deriving DecidableEq, Repr

/-- The location of a present slot (R80): used directly, relative to `sp`, or as a heap index. -/
inductive Location where
  | direct
  | stack
  | heap
  deriving DecidableEq, Repr

/-- The ten descriptor states of R53: absent, or a (kind, location) pair. -/
inductive SlotState where
  | absent
  | present (kind : Kind) (loc : Location)
  deriving DecidableEq, Repr

/-- The index of a general register, `r0` to `r7` (R11, R58). -/
abbrev RegIndex := Fin 8

/-- An operand slot with its value (R80). The value of `sconst` is its 32-bit two's-complement word,
the value of `lconst` the content of its trailing word, the value of `reg` a register index. -/
inductive Slot where
  | absent
  | sconst (loc : Location) (v : Word)
  | lconst (loc : Location) (v : Word)
  | reg (loc : Location) (i : RegIndex)
  deriving DecidableEq, Repr

/-- The state of a slot: what is left without the value (R80). -/
def Slot.state : Slot → SlotState
  | .absent => .absent
  | .sconst l _ => .present .sconst l
  | .lconst l _ => .present .lconst l
  | .reg l _ => .present .reg l

/-- The three slots of a record, 0 to 2 from left to right (R80). -/
structure Operands where
  s0 : Slot := .absent
  s1 : Slot := .absent
  s2 : Slot := .absent
  deriving DecidableEq, Repr

/-- The three slots in slot order. -/
def Operands.toList (o : Operands) : List Slot := [o.s0, o.s1, o.s2]

/-- An instruction record (R80): an opcode and exactly three slots. The slots may be absent in any
pattern: which patterns an opcode accepts is decided by `validate` alone (R80, R90). -/
inductive Instr where
  /-- `add`, R140. -/
  | add (o : Operands)
  /-- `sub`, R141. -/
  | sub (o : Operands)
  /-- `mul`, R142. -/
  | mul (o : Operands)
  /-- `div`, R143. -/
  | div (o : Operands)
  /-- `or`, R144. -/
  | or (o : Operands)
  /-- `and`, R145. -/
  | and (o : Operands)
  /-- `xor`, R146. -/
  | xor (o : Operands)
  /-- `shl`, R147. -/
  | shl (o : Operands)
  /-- `shr`, R148. -/
  | shr (o : Operands)
  /-- `not`, R149. -/
  | not (o : Operands)
  /-- `cmp`, R160. -/
  | cmp (o : Operands)
  /-- `jmp`, R161. -/
  | jmp (o : Operands)
  /-- `je`, R162. -/
  | je (o : Operands)
  /-- `jl`, R163. -/
  | jl (o : Operands)
  /-- `jle`, R164. -/
  | jle (o : Operands)
  /-- `jne`, R165. -/
  | jne (o : Operands)
  /-- `jnl`, R166. -/
  | jnl (o : Operands)
  /-- `jnle`, R167. -/
  | jnle (o : Operands)
  /-- `call`, R168. -/
  | call (o : Operands)
  /-- `ret`, R169. -/
  | ret (o : Operands)
  /-- `push`, R180. -/
  | push (o : Operands)
  /-- `pop`, R181. -/
  | pop (o : Operands)
  /-- `swap`, R182. -/
  | swap (o : Operands)
  /-- `alloc`, R184. -/
  | alloc (o : Operands)
  /-- `free`, R186. -/
  | free (o : Operands)
  /-- `entry`, R190. -/
  | entry (o : Operands)
  /-- `hlt`, R191. -/
  | hlt (o : Operands)
  /-- `exp0`, R192. -/
  | exp0 (o : Operands)
  /-- `exp1`, R193. -/
  | exp1 (o : Operands)
  /-- `exp2`, R194. -/
  | exp2 (o : Operands)
  /-- `exp3`, R195. -/
  | exp3 (o : Operands)
  /-- `exp4`, R196. -/
  | exp4 (o : Operands)
  deriving DecidableEq, Repr

/-- The opcode of a record. -/
def Instr.opcode : Instr → Opcode
  | .add _ => .add
  | .sub _ => .sub
  | .mul _ => .mul
  | .div _ => .div
  | .or _ => .or
  | .and _ => .and
  | .xor _ => .xor
  | .shl _ => .shl
  | .shr _ => .shr
  | .not _ => .not
  | .cmp _ => .cmp
  | .jmp _ => .jmp
  | .je _ => .je
  | .jl _ => .jl
  | .jle _ => .jle
  | .jne _ => .jne
  | .jnl _ => .jnl
  | .jnle _ => .jnle
  | .call _ => .call
  | .ret _ => .ret
  | .push _ => .push
  | .pop _ => .pop
  | .swap _ => .swap
  | .alloc _ => .alloc
  | .free _ => .free
  | .entry _ => .entry
  | .hlt _ => .hlt
  | .exp0 _ => .exp0
  | .exp1 _ => .exp1
  | .exp2 _ => .exp2
  | .exp3 _ => .exp3
  | .exp4 _ => .exp4

/-- The three slots of a record. -/
def Instr.operands : Instr → Operands
  | .add o => o
  | .sub o => o
  | .mul o => o
  | .div o => o
  | .or o => o
  | .and o => o
  | .xor o => o
  | .shl o => o
  | .shr o => o
  | .not o => o
  | .cmp o => o
  | .jmp o => o
  | .je o => o
  | .jl o => o
  | .jle o => o
  | .jne o => o
  | .jnl o => o
  | .jnle o => o
  | .call o => o
  | .ret o => o
  | .push o => o
  | .pop o => o
  | .swap o => o
  | .alloc o => o
  | .free o => o
  | .entry o => o
  | .hlt o => o
  | .exp0 o => o
  | .exp1 o => o
  | .exp2 o => o
  | .exp3 o => o
  | .exp4 o => o

/-- The record with a given opcode and given slots. -/
def Instr.ofRecord (op : Opcode) (o : Operands) : Instr :=
  match op with
  | .add => .add o
  | .sub => .sub o
  | .mul => .mul o
  | .div => .div o
  | .or => .or o
  | .and => .and o
  | .xor => .xor o
  | .shl => .shl o
  | .shr => .shr o
  | .not => .not o
  | .cmp => .cmp o
  | .jmp => .jmp o
  | .je => .je o
  | .jl => .jl o
  | .jle => .jle o
  | .jne => .jne o
  | .jnl => .jnl o
  | .jnle => .jnle o
  | .call => .call o
  | .ret => .ret o
  | .push => .push o
  | .pop => .pop o
  | .swap => .swap o
  | .alloc => .alloc o
  | .free => .free o
  | .entry => .entry o
  | .hlt => .hlt o
  | .exp0 => .exp0 o
  | .exp1 => .exp1 o
  | .exp2 => .exp2 o
  | .exp3 => .exp3 o
  | .exp4 => .exp4 o

end Sys2Proof
end

