-- ==== Sys2Proof/Config.lean ====
section
/-! DEFINITION. The named parameters of the machine (00_scope.md R6) and the free values. -/

namespace Sys2Proof

/-- The parameters of 00_scope.md R6 other than `PROG` and `PROG_LEN`. A map is the list of its
preimages: the entry at position `k` is what the number `k` stands for. -/
structure Config where
  /-- `OPCODE_MAP`: entry `k` is the mnemonic with opcode number `k`. -/
  opcodeMap : List Opcode
  /-- `DIGIT_MAP`: entry `k` is the descriptor state with digit `k`. -/
  digitMap : List SlotState
  /-- `STACK_LIMIT`: the number of addressable stack cells. -/
  stackLimit : Nat
  /-- `HEAP_LIMIT`: the number of addressable heap cells. -/
  heapLimit : Nat
  /-- `PAGE_WORDS`: not architecturally visible, no rule reads it (R35, 93_implementation_defined.md U12). -/
  pageWords : Nat
  /-- `MEM_INIT`: `some v` is the 32-bit value `v`, `none` is "any value" (R6, R28). -/
  memInit : Option Word
  deriving DecidableEq, Repr

/-- What a never-written stack cell holds when `MEM_INIT` is "any value" (R28): a free value for each
index, unconstrained. Log entry 7. -/
opaque Config.freeStackCell : Nat → Word

/-- What a never-written heap cell holds when `MEM_INIT` is "any value" (R28): a free value for each
index, unconstrained. Log entry 7. -/
opaque Config.freeHeapCell : Nat → Word

end Sys2Proof
end

