-- ==== Sys2Proof/Decode.lean ====
section
/-! DEFINITION. The instruction codec: `decode`, `encode`, `validate`, the object stream's byte order
and the default opcode and digit tables (30_encoding.md, 40_codec.md, 20_memory.md R37). -/

namespace Sys2Proof

/-! ### Bit fields and constants -/

/-- `v[lo+len-1 : lo]`, as an unsigned integer (R7). -/
def bits (v lo len : Nat) : Nat := v / 2 ^ lo % 2 ^ len

/-- `trunc_n(v)`, the low `n` bits (R7). -/
def trunc (n : Nat) (v : Word) : Nat := bits v.toNat 0 n

/-- `sext_n(p)`: the 32-bit word whose low `n` bits are those of `p` and whose other bits equal bit
`n-1` (R7). -/
def sext (n p : Nat) : Word := (BitVec.ofNat n p).signExtend 32

/-- `fits_n(v)` (R7). -/
def fits (n : Nat) (v : Word) : Bool := sext n (trunc n v) == v

/-! ### The default maps -/

/-- The default `OPCODE_MAP`: opcode numbers 0 to 31 in the order of the table of R56. -/
def defaultOpcodeMap : List Opcode :=
  [.add, .sub, .mul, .div, .or, .and, .xor, .shl, .shr,
   .not, .cmp, .jmp, .je, .jl, .jle, .jne, .jnl, .jnle, .call,
   .ret, .push, .pop, .swap, .alloc, .free,
   .entry, .hlt, .exp0, .exp1, .exp2, .exp3, .exp4]

/-- The default `DIGIT_MAP`: absent is 0, a present slot is `1 + 3*loc + kind` (R53). -/
def defaultDigitMap : List SlotState :=
  [.absent,
   .present .sconst .direct, .present .lconst .direct, .present .reg .direct,
   .present .sconst .stack, .present .lconst .stack, .present .reg .stack,
   .present .sconst .heap, .present .lconst .heap, .present .reg .heap]

/-- The default parameters of R6. `PAGE_WORDS` may have any value (DESIGN CHOICE, log entry 5). -/
def Config.default : Config where
  opcodeMap := defaultOpcodeMap
  digitMap := defaultDigitMap
  stackLimit := 2 ^ 32 - 1
  heapLimit := 2 ^ 32 - 1
  pageWords := 1
  memInit := some 0

/-- `OPCODE_MAP(op)`. -/
def Config.opcodeNumber (c : Config) (op : Opcode) : Nat := c.opcodeMap.idxOf op

/-- `DIGIT_MAP(t)`. -/
def Config.digit (c : Config) (t : SlotState) : Nat := c.digitMap.idxOf t

/-! ### Slot predicates and payload layout -/

/-- `present(s)` (R89). -/
def SlotState.isPresent : SlotState → Bool
  | .absent => false
  | .present _ _ => true

/-- `imm(s)`: a constant in the direct location (R89). -/
def SlotState.isImm : SlotState → Bool
  | .present .sconst .direct => true
  | .present .lconst .direct => true
  | _ => false

/-- `writable(s)`: present and not an immediate (R89). -/
def SlotState.isWritable (t : SlotState) : Bool := t.isPresent && !t.isImm

/-- The state has the given kind. -/
def SlotState.hasKind (k : Kind) : SlotState → Bool
  | .absent => false
  | .present k' _ => k == k'

/-- How many of the slots have the given kind: `R`, `S` or the number of trailing words (R54, R62). -/
def countKind (k : Kind) (ts : List SlotState) : Nat := ts.countP (SlotState.hasKind k)

/-- The derived width `w = (17 - 3*R) // S` (R55). There is none when no slot is an sconst. -/
def derivedWidth (ts : List SlotState) : Option Nat :=
  if countKind .sconst ts = 0 then none
  else some ((17 - 3 * countKind .reg ts) / countKind .sconst ts)

/-- The width of an sconst payload, and 0 where there is no sconst slot to use it (R55). -/
def payloadWidth (ts : List SlotState) : Nat := (derivedWidth ts).getD 0

/-- How many payload bits a slot takes (R54). -/
def SlotState.payloadBits (w : Nat) : SlotState → Nat
  | .absent => 0
  | .present .sconst _ => w
  | .present .lconst _ => 0
  | .present .reg _ => 3

/-- The cursor after slots 0, 1 and 2: it starts at 17 and each slot lowers it by its bits (R54). -/
def cursors (w : Nat) (t0 t1 t2 : SlotState) : Nat × Nat × Nat :=
  let c0 := 17 - t0.payloadBits w
  let c1 := c0 - t1.payloadBits w
  (c0, c1, c1 - t2.payloadBits w)

/-- The states of the three slots. -/
def Operands.states (o : Operands) : List SlotState := o.toList.map Slot.state

/-- The derived width of an operand triple, 0 where it has no sconst slot. -/
def Operands.width (o : Operands) : Nat := payloadWidth o.states

/-- The trailing words of an operand triple, one per lconst slot, in slot order (R50, R84). -/
def Operands.trailing (o : Operands) : List Word :=
  o.toList.filterMap fun
    | .lconst _ v => some v
    | _ => none

/-- The number of trailing words `n` (R50, R62). -/
def Operands.nTrailing (o : Operands) : Nat := countKind .lconst o.states

/-- The length of an instruction in words (R62). -/
def Instr.length (i : Instr) : Nat := 1 + i.operands.nTrailing

/-! ### decode -/

/-- One slot of `decode`: its payload stands at the cursor `c` (R86). A large immediate gets the
placeholder 0 (R88). -/
def unpackSlot (w payload c : Nat) : SlotState → Slot
  | .absent => .absent
  | .present .sconst l => .sconst l (sext w (bits payload c w))
  | .present .lconst l => .lconst l 0
  | .present .reg l => .reg l (Fin.ofNat 8 (bits payload c 3))

/-- The three slots of `decode`, from the payload field and the three states (R54, R86). -/
def unpackOperands (payload : Nat) (t0 t1 t2 : SlotState) : Operands :=
  let w := payloadWidth [t0, t1, t2]
  let c := cursors w t0 t1 t2
  ⟨unpackSlot w payload c.1 t0, unpackSlot w payload c.2.1 t1, unpackSlot w payload c.2.2 t2⟩

/-- `decode(word)` (R86): `none` is `DescError` (R87). Under a map that is no bijection a number may
have no preimage, and that is `none` too (log entry 12). -/
def decode (c : Config) (word : Word) : Option Instr :=
  let v := word.toNat
  let desc := bits v 17 10
  if desc ≥ 1000 then none
  else
    match c.opcodeMap[bits v 27 5]?, c.digitMap[desc / 100]?, c.digitMap[desc / 10 % 10]?,
      c.digitMap[desc % 10]? with
    | some op, some t0, some t1, some t2 =>
        some (Instr.ofRecord op (unpackOperands (bits v 0 17) t0 t1 t2))
    | _, _, _, _ => none

/-- A slot as `decode` returns it: a large immediate has the placeholder value 0 (R88). -/
def Slot.placeholder : Slot → Slot
  | .absent => .absent
  | .sconst l v => .sconst l v
  | .lconst l _ => .lconst l 0
  | .reg l i => .reg l i

/-- The slots of a record as `decode` returns them (R88). -/
def Operands.placeholder (o : Operands) : Operands :=
  ⟨o.s0.placeholder, o.s1.placeholder, o.s2.placeholder⟩

/-- Fill one slot from the stream: a large immediate takes the next word (R88, R122). -/
def Slot.fill (ws : List Word) : Slot → Option (Slot × List Word)
  | .absent => some (.absent, ws)
  | .sconst l v => some (.sconst l v, ws)
  | .reg l i => some (.reg l i, ws)
  | .lconst l _ =>
      match ws with
      | [] => none
      | w :: rest => some (.lconst l w, rest)

/-- Fill slots 0, 1, 2 in this order (R88, R122), and give the words left over. -/
def Operands.fill (o : Operands) (ws : List Word) : Option (Operands × List Word) :=
  match o.s0.fill ws with
  | none => none
  | some (a, ws0) =>
    match o.s1.fill ws0 with
    | none => none
    | some (b, ws1) =>
      match o.s2.fill ws1 with
      | none => none
      | some (d, ws2) => some (⟨a, b, d⟩, ws2)

/-- Why a stream of words gives no instruction. -/
inductive DecodeError where
  /-- There is no instruction word (R121). -/
  | pastEnd
  /-- The instruction word has a descriptor of 1000 or more (R87). -/
  | descError
  /-- A trailing word is missing (R122). -/
  | trailingPastEnd
  deriving DecidableEq, Repr

/-- The instruction at the front of a stream of words, and the words after it: `decode`, then the
trailing words (`decode_full` of R88). -/
def decodeWords (c : Config) : List Word → Except DecodeError (Instr × List Word)
  | [] => .error .pastEnd
  | w :: ws =>
    match decode c w with
    | none => .error .descError
    | some i =>
      match i.operands.fill ws with
      | none => .error .trailingPastEnd
      | some (o, rest) => .ok (Instr.ofRecord i.opcode o, rest)

/-! ### The object stream -/

/-- A word from its four bytes, the first least significant (R37). -/
def wordOfBytes (b0 b1 b2 b3 : Byte) : Word :=
  BitVec.ofNat 32 (b0.toNat + 2 ^ 8 * b1.toNat + 2 ^ 16 * b2.toNat + 2 ^ 24 * b3.toNat)

/-- The four bytes of a word in the object stream (R37). -/
def bytesOfWord (w : Word) : List Byte :=
  [BitVec.ofNat 8 (bits w.toNat 0 8), BitVec.ofNat 8 (bits w.toNat 8 8),
   BitVec.ofNat 8 (bits w.toNat 16 8), BitVec.ofNat 8 (bits w.toNat 24 8)]

/-- The whole words of a byte stream (R37). -/
def wordsOfBytes : List Byte → List Word
  | b0 :: b1 :: b2 :: b3 :: bs => wordOfBytes b0 b1 b2 b3 :: wordsOfBytes bs
  | _ => []

/-- The instruction at the front of a byte stream, and the bytes after it; total on any bytes. -/
def decodeBytes (c : Config) (bs : List Byte) : Except DecodeError (Instr × List Byte) :=
  match decodeWords c (wordsOfBytes bs) with
  | .error e => .error e
  | .ok (i, _) => .ok (i, bs.drop (4 * i.length))

/-- The 32-bit words of an instruction of at most four words whose bits are `w`, numbered from the
first word up; bits from `nbits` on are 0. -/
def tableWords (nbits w : Nat) : List Word :=
  let v := w % 2 ^ nbits
  [BitVec.ofNat 32 (bits v 0 32), BitVec.ofNat 32 (bits v 32 32),
   BitVec.ofNat 32 (bits v 64 32), BitVec.ofNat 32 (bits v 96 32)]

/-- What the decoder reads from an instruction whose bits are `w`, numbered as
spec/opcode_table.json numbers them, under the default maps. -/
def decodeTableWord (nbits w : Nat) : Option Instr :=
  match decodeBytes Config.default ((tableWords nbits w).flatMap bytesOfWord) with
  | .error _ => none
  | .ok (i, _) => some i

/-! ### encode -/

/-- The payload of a slot, in its bits (R57, R58). -/
def Slot.payload (w : Nat) : Slot → Nat
  | .absent => 0
  | .sconst _ v => trunc w v
  | .lconst _ _ => 0
  | .reg _ i => i.val

/-- An sconst slot's value fits the derived width; any other slot has nothing to fit (R85). -/
def Slot.fitsWidth (w : Nat) : Slot → Bool
  | .absent => true
  | .sconst _ v => fits w v
  | .lconst _ _ => true
  | .reg _ _ => true

/-- A record is encodable when no slot raises the range error (R85). -/
def Instr.encodable (i : Instr) : Bool :=
  i.operands.toList.all (Slot.fitsWidth i.operands.width)

/-- The packed payload field, unused low bits 0 (R54, R84). -/
def Operands.payload (o : Operands) : Nat :=
  let w := o.width
  let c := cursors w o.s0.state o.s1.state o.s2.state
  o.s0.payload w * 2 ^ c.1 + o.s1.payload w * 2 ^ c.2.1 + o.s2.payload w * 2 ^ c.2.2

/-- The descriptor `100*d0 + 10*d1 + d2` (R52). -/
def Config.desc (c : Config) (o : Operands) : Nat :=
  100 * c.digit o.s0.state + 10 * c.digit o.s1.state + c.digit o.s2.state

/-- The instruction word of a record, `opcode * 2^27 + desc * 2^17 + payload` (R51). -/
def instrWord (c : Config) (i : Instr) : Word :=
  BitVec.ofNat 32
    (c.opcodeNumber i.opcode * 2 ^ 27 + c.desc i.operands * 2 ^ 17 + i.operands.payload)

/-- `encode(rec)`: the instruction word and the trailing words (R84), or `none`, the range error
(R85). It does not validate. -/
def encode (c : Config) (i : Instr) : Option (Word × List Word) :=
  if i.encodable then some (instrWord c i, i.operands.trailing) else none

/-- The bytes of an encodable instruction in the object stream (R37, R68). -/
def encodeBytes (c : Config) (i : Instr) : Option (List Byte) :=
  (encode c i).map fun p => (p.1 :: p.2).flatMap bytesOfWord

/-! ### validate -/

/-- The nine policy classes, R95 to R103. -/
inductive Policy where
  | none
  | arith
  | not
  | cmp
  | oneAny
  | pop
  | swap
  | alloc
  | invalid
  deriving DecidableEq, Repr

/-- The policy class of each opcode (R56, R104). -/
def Opcode.policy : Opcode → Policy
  | .add => .arith
  | .sub => .arith
  | .mul => .arith
  | .div => .arith
  | .or => .arith
  | .and => .arith
  | .xor => .arith
  | .shl => .arith
  | .shr => .arith
  | .not => .not
  | .cmp => .cmp
  | .jmp => .oneAny
  | .je => .oneAny
  | .jl => .oneAny
  | .jle => .oneAny
  | .jne => .oneAny
  | .jnl => .oneAny
  | .jnle => .oneAny
  | .call => .oneAny
  | .ret => .none
  | .push => .oneAny
  | .pop => .pop
  | .swap => .swap
  | .alloc => .alloc
  | .free => .oneAny
  | .entry => .none
  | .hlt => .none
  | .exp0 => .invalid
  | .exp1 => .invalid
  | .exp2 => .invalid
  | .exp3 => .invalid
  | .exp4 => .invalid

/-- The operand policies on the three slot states (R95 to R103). -/
def Policy.accepts (p : Policy) (t0 t1 t2 : SlotState) : Bool :=
  match p with
  | .none => !t0.isPresent && !t1.isPresent && !t2.isPresent
  | .arith => t0.isPresent && t1.isPresent && (if t2.isPresent then !t2.isImm else !t0.isImm)
  | .not => t0.isPresent && !t2.isPresent && (if t1.isPresent then !t1.isImm else !t0.isImm)
  | .cmp => t0.isPresent && t1.isPresent && !t2.isPresent
  | .oneAny => t0.isPresent && !t1.isPresent && !t2.isPresent
  | .pop => t0.isWritable && !t1.isPresent && !t2.isPresent
  | .swap => t0.isWritable && t1.isWritable && !t2.isPresent
  | .alloc => t0.isPresent && t1.isWritable && !t2.isPresent
  | .invalid => false

/-- `validate(rec)` (R90): a function of the shape only (R83). -/
def Instr.validate (i : Instr) : Bool :=
  i.opcode.policy.accepts i.operands.s0.state i.operands.s1.state i.operands.s2.state

end Sys2Proof
end

