-- ==== Sys2Proof/Machine/State.lean ====
section
/-! DEFINITION. All state of the core (10_state.md R11 to R29), the reasons a step can stop, and the
machine after reset (70_reset_and_hazards.md R230). -/

namespace Sys2Proof.Machine

/-- The nine fault causes of 60_exceptions.md R200. -/
inductive Cause where
  /-- R201: `pc >= PROG_LEN` at the start of a step. -/
  | fetchPastEnd
  /-- R202: the descriptor field of the instruction word is 1000 to 1023. -/
  | decodeInvalid
  /-- R203: a trailing word is at an index `>= PROG_LEN`. -/
  | trailingPastEnd
  /-- R204: `J = 1` and the opcode is not `entry`. -/
  | badLanding
  /-- R205: `validate` is false. -/
  | invalidInstruction
  /-- R209: a cell at or beyond `STACK_LIMIT` or `HEAP_LIMIT`, or an `alloc` past `HEAP_LIMIT`. -/
  | memoryLimit
  /-- R206: `pop` or `ret` with `sp = 0`. -/
  | stackUnderflow
  /-- R208: `div` with right operand 0. -/
  | divideByZero
  /-- R210: `free` reached execution. -/
  | unimplemented
  deriving DecidableEq, Repr

/-- `status` (R8, R22, R25): Halted is the source's halted flag, the cause is the fault code field. -/
inductive Status where
  | running
  | halted
  | faulted (cause : Cause)
  deriving DecidableEq, Repr

/-- Stack or heap memory: the listed cells, (word index, word), indices strictly rising and no cell
equal to what an unlisted one reads as (log entry 8). -/
abbrev Memory := List (Nat × Word)

/-- The state of the core, R29. `PROG_LEN` is `prog.length`. -/
structure State where
  /-- The parameters of R6; the model's own field, which no step changes (log entry 4). -/
  cfg : Config
  /-- `PROG` (R27, R30). -/
  prog : List Word
  /-- `r0` to `r7` (R11). -/
  regs : Vector Word 8
  /-- The program counter, a word index (R14). -/
  pc : Word
  /-- The stack pointer, the number of words on the stack (R17). -/
  sp : Word
  /-- The heap watermark (R24). -/
  hwm : Word
  /-- The zero flag `Z` (R19). -/
  z : Bool
  /-- The negative flag `N` (R19). -/
  n : Bool
  /-- The "just jumped" flag `J` (R23). -/
  j : Bool
  /-- Running, halted or faulted (R22, R25). -/
  status : Status
  /-- `STACK` (R27, R31). -/
  stack : Memory
  /-- `HEAP` (R27, R32). -/
  heap : Memory
  deriving DecidableEq, Repr

/-- Faults that end the MODEL's run without a next state. There are none: every fault of the spec is
a next state with status Faulted (R207, log entry 1). -/
inductive Fault where
  deriving DecidableEq, Repr

/-- Reasons for which the model gives no meaning. Each is safe: the machine stops. -/
inductive Refusal where
  /-- Raised by an arm of `exec` whose instruction has no meaning yet; no arm is one now. Safe. -/
  | notModelled (mnemonic : String)
  /-- Raised by `State.write` on an immediate, which R131 says is never called; no step does (log
  entry 11). Safe. -/
  | writeToImmediate
  /-- Raised where a meaning reads the location of an absent slot; `validate` has rejected every
  record that would, so no step does (log entry 11). Safe. -/
  | absentOperand
  deriving DecidableEq, Repr

/-- How a step can end early: `raise F` of R8, or a refusal of the model. -/
inductive Stop where
  | raise (cause : Cause)
  | refuse (r : Refusal)
  deriving DecidableEq, Repr

/-- The state of R230 for given parameters and a loaded program. -/
def State.resetWith (cfg : Config) (prog : List Word) : State where
  cfg := cfg
  prog := prog
  regs := Vector.replicate 8 0
  pc := 0
  sp := 0
  hwm := 0
  z := false
  n := false
  j := false
  status := .running
  stack := []
  heap := []

/-- The machine right after reset, default parameters, no program loaded yet (log entries 5, 6, 9). -/
def State.reset : State := State.resetWith Config.default []

end Sys2Proof.Machine
end

