-- ==== Sys2Proof/Machine/Ops.lean ====
section
/-! DEFINITION. The named operations over registers, memories, flags and status, raising a fault, and
the stages of a step that all instructions share (41_step_and_operands.md R120 to R125,
20_memory.md, 60_exceptions.md R207). -/

namespace Sys2Proof.Machine

/-! ### Memory -/

/-- Read the cell at index `a`; `blank` is what unlisted cells hold (R39). -/
def Memory.read (blank : Nat → Word) : Memory → Nat → Word
  | [], a => blank a
  | (b, v) :: m, a => if a = b then v else Memory.read blank m a

/-- Put `v` at index `a` in front of `m`, unless unlisted cells hold it anyway. -/
def Memory.cons (blank : Nat → Word) (a : Nat) (v : Word) (m : Memory) : Memory :=
  if v = blank a then m else (a, v) :: m

/-- Write `v` to the cell at index `a`, in canonical form (R39, log entry 8). -/
def Memory.write (blank : Nat → Word) : Memory → Nat → Word → Memory
  | [], a, v => Memory.cons blank a v []
  | (b, u) :: m, a, v =>
      if a < b then Memory.cons blank a v ((b, u) :: m)
      else if a = b then Memory.cons blank a v m
      else (b, u) :: Memory.write blank m a v

/-- The canonical form: indices from `lo` up, strictly rising, and no cell that equals `blank`. -/
def Memory.wfFrom (blank : Nat → Word) : Nat → Memory → Bool
  | _, [] => true
  | lo, (a, v) :: m => decide (lo ≤ a) && v != blank a && Memory.wfFrom blank (a + 1) m

/-- The canonical form of a memory (log entry 8). -/
def Memory.wf (blank : Nat → Word) (m : Memory) : Bool := Memory.wfFrom blank 0 m

/-- What a never-written stack cell holds (R28): `MEM_INIT`, or a free value when that is any value. -/
def stackBlank (c : Config) (a : Nat) : Word :=
  match c.memInit with
  | some v => v
  | none => Config.freeStackCell a

/-- What a never-written heap cell holds (R28): `MEM_INIT`, or a free value when that is any value. -/
def heapBlank (c : Config) (a : Nat) : Word :=
  match c.memInit with
  | some v => v
  | none => Config.freeHeapCell a

/-! ### Reading and writing the state -/

namespace State

/-- `PROG_LEN` (R6). -/
def progLen (s : State) : Nat := s.prog.length

/-- `x[i]` (R8). -/
def reg (s : State) (i : RegIndex) : Word := s.regs[i.val]

/-- `x[i] <- v` (R8). -/
def setReg (s : State) (i : RegIndex) (v : Word) : State := { s with regs := s.regs.set i.val v }

/-- `STACK[a]` (R8). -/
def stackCell (s : State) (a : Nat) : Word := Memory.read (stackBlank s.cfg) s.stack a

/-- `STACK[a] <- v` (R8). -/
def setStackCell (s : State) (a : Nat) (v : Word) : State :=
  { s with stack := Memory.write (stackBlank s.cfg) s.stack a v }

/-- `HEAP[a]` (R8). -/
def heapCell (s : State) (a : Nat) : Word := Memory.read (heapBlank s.cfg) s.heap a

/-- `HEAP[a] <- v` (R8). -/
def setHeapCell (s : State) (a : Nat) (v : Word) : State :=
  { s with heap := Memory.write (heapBlank s.cfg) s.heap a v }

/-- `pc <- t` (R8). -/
def setPc (s : State) (t : Word) : State := { s with pc := t }

/-- `sp <- v`. -/
def setSp (s : State) (v : Word) : State := { s with sp := v }

/-- `hwm <- v`. -/
def setHwm (s : State) (v : Word) : State := { s with hwm := v }

/-- `Z <- z ; N <- n`. -/
def setFlags (s : State) (z n : Bool) : State := { s with z := z, n := n }

/-- `J <- b`. -/
def setJ (s : State) (b : Bool) : State := { s with j := b }

/-- `status <- t`. -/
def setStatus (s : State) (t : Status) : State := { s with status := t }

/-- What a fault does (R207): the state from before the step with `status <- Faulted(code)`, nothing
else. There is no handler and no return from a fault (R211), so this is the whole of it. -/
def raise (s : State) (c : Cause) : State := s.setStatus (.faulted c)

/-- The post-fetch program counter `npc` of instruction `i` at `pc` (R14, R122). -/
def npc (s : State) (i : Instr) : Word := s.pc + BitVec.ofNat 32 i.length

end State

/-- The numeric fault code of R200. -/
def Cause.code : Cause → Nat
  | .fetchPastEnd => 1
  | .decodeInvalid => 2
  | .trailingPastEnd => 3
  | .badLanding => 4
  | .invalidInstruction => 5
  | .memoryLimit => 6
  | .stackUnderflow => 7
  | .divideByZero => 8
  | .unimplemented => 9

/-! ### The stages of a step -/

/-- How a step ends (R120, R207): with its changes; or with a fault, all changes discarded. -/
def finish (s : State) : Except Stop State → Host.Outcome State Fault Refusal
  | .ok t => .next t
  | .error (.raise c) => .next (s.raise c)
  | .error (.refuse r) => .refused r

/-- The fault of a stream that gives no instruction (R121, R122). -/
def decodeCause : DecodeError → Cause
  | .pastEnd => .fetchPastEnd
  | .descError => .decodeInvalid
  | .trailingPastEnd => .trailingPastEnd

/-- Stages 1 and 2 (R121, R122): the instruction at `pc` with its trailing words, read from `PROG`. -/
def State.fetch (s : State) : Except Stop Instr :=
  match decodeWords s.cfg (s.prog.drop s.pc.toNat) with
  | .error e => .error (.raise (decodeCause e))
  | .ok (i, _) => .ok i

/-- Stage 3 for an opcode that is not `entry` (R123): it may not be landed on. -/
def State.landing (s : State) : Except Stop Unit :=
  if s.j then .error (.raise .badLanding) else .ok ()

/-- Stage 4 (R124). -/
def validation (i : Instr) : Except Stop Unit :=
  if i.validate then .ok () else .error (.raise .invalidInstruction)

end Sys2Proof.Machine
end

