-- ==== Sys2Proof/Machine/Operands.lean ====
section
/-! DEFINITION. The addressing-mode resolver, and reading and writing a resolved location
(41_step_and_operands.md R125 to R132). -/

namespace Sys2Proof.Machine

/-- A resolved operand, the `Loc` of 41_step_and_operands.md section 2; cells by word index. -/
inductive Loc where
  | imm (v : Word)
  | reg (i : RegIndex)
  | stackCell (a : Nat)
  | heapCell (a : Nat)
  deriving DecidableEq, Repr

/-- The locations of the three slots; `none` for an absent slot. -/
structure Locs where
  l0 : Option Loc
  l1 : Option Loc
  l2 : Option Loc
  deriving DecidableEq, Repr

/-- The place of a constant of value `v` used at a location (R127 to R129). A stack cell is at
`(sp + v) mod 2^32`, a heap cell at `v`. -/
def State.placeOfConst (s : State) (v : Word) : Location → Loc
  | .direct => .imm v
  | .stack => .stackCell (s.sp + v).toNat
  | .heap => .heapCell v.toNat

/-- The place of register `i` used at a location (R127 to R129); in memory locations the register
gives the index (R126). -/
def State.placeOfReg (s : State) (i : RegIndex) : Location → Loc
  | .direct => .reg i
  | .stack => .stackCell (s.sp + s.reg i).toNat
  | .heap => .heapCell (s.reg i).toNat

/-- The location a slot names, before any limit is checked; `none` for an absent slot. -/
def State.locate (s : State) : Slot → Option Loc
  | .absent => none
  | .sconst l v => some (s.placeOfConst v l)
  | .lconst l v => some (s.placeOfConst v l)
  | .reg l i => some (s.placeOfReg i l)

/-- The location is below its limit (R35). -/
def State.inLimit (s : State) : Loc → Bool
  | .imm _ => true
  | .reg _ => true
  | .stackCell a => decide (a < s.cfg.stackLimit)
  | .heapCell a => decide (a < s.cfg.heapLimit)

/-- `resolve(slot)` (R127 to R129), with the limit fault. -/
def State.resolve (s : State) (x : Slot) : Except Stop (Option Loc) :=
  match s.locate x with
  | none => .ok none
  | some l => if s.inLimit l then .ok (some l) else .error (.raise .memoryLimit)

/-- Stage 5 (R125): every present slot, in the order 0, 1, 2. -/
def State.resolveAll (s : State) (o : Operands) : Except Stop Locs := do
  let a ← s.resolve o.s0
  let b ← s.resolve o.s1
  let c ← s.resolve o.s2
  .ok ⟨a, b, c⟩

/-- `Read(loc)` (R130). -/
def State.read (s : State) : Loc → Word
  | .imm v => v
  | .reg i => s.reg i
  | .stackCell a => s.stackCell a
  | .heapCell a => s.heapCell a

/-- `Write(loc, v)` (R131). An immediate rejects the write by name; no validated instruction tries. -/
def State.write (s : State) (l : Loc) (v : Word) : Except Stop State :=
  match l with
  | .imm _ => .error (.refuse .writeToImmediate)
  | .reg i => .ok (s.setReg i v)
  | .stackCell a => .ok (s.setStackCell a v)
  | .heapCell a => .ok (s.setHeapCell a v)

/-- The location of a slot that the instruction uses; validation has made sure it is present. -/
def present : Option Loc → Except Stop Loc
  | none => .error (.refuse .absentOperand)
  | some l => .ok l

/-- Stages 3 to 6 for an opcode that is not `entry` (R123 to R125, R133): landing check, validation,
resolution, then the instruction's own rule `body`. -/
def execute (i : Instr) (s : State) (body : Locs → Except Stop State) :
    Host.Outcome State Fault Refusal :=
  finish s do
    s.landing
    validation i
    let locs ← s.resolveAll i.operands
    body locs

end Sys2Proof.Machine
end

