-- ==== Sys2Proof/Machine/Arithmetic.lean ====
section
/-! DEFINITION. Arithmetic, bitwise and shift instructions (42_arithmetic.md R140 to R151). -/

namespace Sys2Proof.Machine

/-- `exec_binary` (R150): both reads first, the result to slot 2 if present, else to slot 0. The
function may raise a fault of its own (`div` only). -/
def binaryBody (f : Word → Word → Except Stop Word) (npc : Word) (s : State) (locs : Locs) :
    Except Stop State := do
  let l0 ← present locs.l0
  let l1 ← present locs.l1
  let r ← f (s.read l0) (s.read l1)
  let t ← s.write (locs.l2.getD l0) r
  .ok (t.setPc npc)

/-- A binary instruction whose function raises nothing. -/
def executeBinary (i : Instr) (f : Word → Word → Word) (s : State) :
    Host.Outcome State Fault Refusal :=
  execute i s (binaryBody (fun a b => .ok (f a b)) (s.npc i) s)

/-- `add` (R140). -/
def execAdd (o : Operands) (s : State) : Host.Outcome State Fault Refusal :=
  executeBinary (.add o) aluAdd s

/-- `sub` (R141). -/
def execSub (o : Operands) (s : State) : Host.Outcome State Fault Refusal :=
  executeBinary (.sub o) aluSub s

/-- `mul` (R142). -/
def execMul (o : Operands) (s : State) : Host.Outcome State Fault Refusal :=
  executeBinary (.mul o) aluMul s

/-- `f` of `div` (R143): a zero divisor raises DivideByZero. -/
def divOrRaise (a b : Word) : Except Stop Word :=
  if b = 0 then .error (.raise .divideByZero) else .ok (aluDiv a b)

/-- `div` (R143). -/
def execDiv (o : Operands) (s : State) : Host.Outcome State Fault Refusal :=
  execute (.div o) s (binaryBody divOrRaise (s.npc (.div o)) s)

/-- `or` (R144). -/
def execOr (o : Operands) (s : State) : Host.Outcome State Fault Refusal :=
  executeBinary (.or o) aluOr s

/-- `and` (R145). -/
def execAnd (o : Operands) (s : State) : Host.Outcome State Fault Refusal :=
  executeBinary (.and o) aluAnd s

/-- `xor` (R146). -/
def execXor (o : Operands) (s : State) : Host.Outcome State Fault Refusal :=
  executeBinary (.xor o) aluXor s

/-- `shl` (R147). -/
def execShl (o : Operands) (s : State) : Host.Outcome State Fault Refusal :=
  executeBinary (.shl o) aluShl s

/-- `shr` (R148). -/
def execShr (o : Operands) (s : State) : Host.Outcome State Fault Refusal :=
  executeBinary (.shr o) aluShr s

/-- `exec_not` (R149): the result to slot 1 if present, else to slot 0. -/
def notBody (npc : Word) (s : State) (locs : Locs) : Except Stop State := do
  let l0 ← present locs.l0
  let t ← s.write (locs.l1.getD l0) (aluNot (s.read l0))
  .ok (t.setPc npc)

/-- `not` (R149). -/
def execNot (o : Operands) (s : State) : Host.Outcome State Fault Refusal :=
  execute (.not o) s (notBody (s.npc (.not o)) s)

end Sys2Proof.Machine
end

