-- ==== Sys2Proof/Machine/Control.lean ====
section
/-! DEFINITION. Compare, jumps, call and return (43_compare_and_jump.md R160 to R172). -/

namespace Sys2Proof.Machine

/-- `exec_cmp` (R160). -/
def cmpBody (npc : Word) (s : State) (locs : Locs) : Except Stop State := do
  let l0 ← present locs.l0
  let l1 ← present locs.l1
  let a := s.read l0
  let b := s.read l1
  .ok ((s.setFlags (cmpZ a b) (cmpN a b)).setPc npc)

/-- `cmp` (R160). -/
def execCmp (o : Operands) (s : State) : Host.Outcome State Fault Refusal :=
  execute (.cmp o) s (cmpBody (s.npc (.cmp o)) s)

/-- `exec_jump` (R170): relative to the jump's own address, and `J` is set, when taken. -/
def jumpBody (cond : Bool → Bool → Bool) (npc : Word) (s : State) (locs : Locs) :
    Except Stop State := do
  let l0 ← present locs.l0
  if cond s.z s.n then .ok ((s.setPc (s.pc + s.read l0)).setJ true)
  else .ok (s.setPc npc)

/-- A jump with its condition (R170, R172). -/
def executeJump (i : Instr) (cond : Bool → Bool → Bool) (s : State) : Host.Outcome State Fault Refusal :=
  execute i s (jumpBody cond (s.npc i) s)

/-- `jmp` (R161). -/
def execJmp (o : Operands) (s : State) : Host.Outcome State Fault Refusal :=
  executeJump (.jmp o) condJmp s

/-- `je` (R162). -/
def execJe (o : Operands) (s : State) : Host.Outcome State Fault Refusal :=
  executeJump (.je o) condJe s

/-- `jl` (R163). -/
def execJl (o : Operands) (s : State) : Host.Outcome State Fault Refusal :=
  executeJump (.jl o) condJl s

/-- `jle` (R164). -/
def execJle (o : Operands) (s : State) : Host.Outcome State Fault Refusal :=
  executeJump (.jle o) condJle s

/-- `jne` (R165). -/
def execJne (o : Operands) (s : State) : Host.Outcome State Fault Refusal :=
  executeJump (.jne o) condJne s

/-- `jnl` (R166). -/
def execJnl (o : Operands) (s : State) : Host.Outcome State Fault Refusal :=
  executeJump (.jnl o) condJnl s

/-- `jnle` (R167). -/
def execJnle (o : Operands) (s : State) : Host.Outcome State Fault Refusal :=
  executeJump (.jnle o) condJnle s

/-- Push a word (R17, R168, R180): write `STACK[sp]`, then add 1 to `sp`; MemoryLimit at the limit. -/
def pushWord (s : State) (v : Word) : Except Stop State :=
  if s.sp.toNat ≥ s.cfg.stackLimit then .error (.raise .memoryLimit)
  else .ok ((s.setStackCell s.sp.toNat v).setSp (s.sp + 1))

/-- Pop a word (R17, R169, R181): read `STACK[sp-1]` and subtract 1 from `sp`; the cell keeps its
content; StackUnderflow when `sp = 0`. -/
def popWord (s : State) : Except Stop (Word × State) :=
  if s.sp = 0 then .error (.raise .stackUnderflow)
  else .ok (s.stackCell (s.sp - 1).toNat, s.setSp (s.sp - 1))

/-- `exec_call` (R168): the operand is read with the old `sp`; the return address is `npc`. -/
def callBody (npc : Word) (s : State) (locs : Locs) : Except Stop State := do
  let l0 ← present locs.l0
  let v := s.read l0
  let t ← pushWord s npc
  .ok ((t.setPc (s.pc + v)).setJ true)

/-- `call` (R168). -/
def execCall (o : Operands) (s : State) : Host.Outcome State Fault Refusal :=
  execute (.call o) s (callBody (s.npc (.call o)) s)

/-- `exec_ret` (R169): `J` stays 0. -/
def retBody (s : State) (_ : Locs) : Except Stop State := do
  let (v, t) ← popWord s
  .ok (t.setPc v)

/-- `ret` (R169). -/
def execRet (o : Operands) (s : State) : Host.Outcome State Fault Refusal :=
  execute (.ret o) s (retBody s)

end Sys2Proof.Machine
end

