-- ==== Sys2Proof/Machine/StackHeap.lean ====
section
/-! DEFINITION. Stack, swap and heap instructions (44_stack_and_heap.md R180 to R186). -/

namespace Sys2Proof.Machine

/-- `exec_push` (R180): the operand is read before `sp` changes. -/
def pushBody (npc : Word) (s : State) (locs : Locs) : Except Stop State := do
  let l0 ← present locs.l0
  let t ← pushWord s (s.read l0)
  .ok (t.setPc npc)

/-- `push` (R180). -/
def execPush (o : Operands) (s : State) : Host.Outcome State Fault Refusal :=
  execute (.push o) s (pushBody (s.npc (.push o)) s)

/-- `exec_pop` (R181): the destination was resolved with the old `sp`. -/
def popBody (npc : Word) (s : State) (locs : Locs) : Except Stop State := do
  let l0 ← present locs.l0
  let (v, t) ← popWord s
  let u ← t.write l0 v
  .ok (u.setPc npc)

/-- `pop` (R181). -/
def execPop (o : Operands) (s : State) : Host.Outcome State Fault Refusal :=
  execute (.pop o) s (popBody (s.npc (.pop o)) s)

/-- `exec_swap` (R182): both reads before either write. -/
def swapBody (npc : Word) (s : State) (locs : Locs) : Except Stop State := do
  let l0 ← present locs.l0
  let l1 ← present locs.l1
  let a := s.read l0
  let b := s.read l1
  let t ← s.write l0 b
  let u ← t.write l1 a
  .ok (u.setPc npc)

/-- `swap` (R182). -/
def execSwap (o : Operands) (s : State) : Host.Outcome State Fault Refusal :=
  execute (.swap o) s (swapBody (s.npc (.swap o)) s)

/-- `exec_alloc` (R184): the bound is on the unbounded sum. -/
def allocBody (npc : Word) (s : State) (locs : Locs) : Except Stop State := do
  let l0 ← present locs.l0
  let l1 ← present locs.l1
  let size := s.read l0
  let base := s.hwm
  if base.toNat + size.toNat > s.cfg.heapLimit then .error (.raise .memoryLimit)
  else
    let t ← (s.setHwm (base + size)).write l1 base
    .ok (t.setPc npc)

/-- `alloc` (R184). -/
def execAlloc (o : Operands) (s : State) : Host.Outcome State Fault Refusal :=
  execute (.alloc o) s (allocBody (s.npc (.alloc o)) s)

/-- `exec_free` (R186): the operand has been resolved, and execution raises Unimplemented. -/
def freeBody (_ : Locs) : Except Stop State := .error (.raise .unimplemented)

/-- `free` (R186). -/
def execFree (o : Operands) (s : State) : Host.Outcome State Fault Refusal :=
  execute (.free o) s freeBody

end Sys2Proof.Machine
end

