-- ==== Sys2Proof/Machine/System.lean ====
section
/-! DEFINITION. The landing marker, halt and the expansion opcodes (45_system.md R190 to R197). -/

namespace Sys2Proof.Machine

/-- `entry` (R190, R123): clears `J` and goes on; never validated, no operand is resolved. -/
def execEntry (o : Operands) (s : State) : Host.Outcome State Fault Refusal :=
  finish s (.ok ((s.setJ false).setPc (s.npc (.entry o))))

/-- `exec_hlt` (R191): only `status` changes, `pc` stays. -/
def hltBody (s : State) (_ : Locs) : Except Stop State := .ok (s.setStatus .halted)

/-- `hlt` (R191). -/
def execHlt (o : Operands) (s : State) : Host.Outcome State Fault Refusal :=
  execute (.hlt o) s (hltBody s)

/-- An expansion opcode has no execution semantics: it is never valid (R192, R103), so its whole
effect is InvalidInstruction; the body says the same. -/
def expansionBody (_ : Locs) : Except Stop State := .error (.raise .invalidInstruction)

/-- `exp0` (R192). -/
def execExp0 (o : Operands) (s : State) : Host.Outcome State Fault Refusal :=
  execute (.exp0 o) s expansionBody

/-- `exp1` (R193). -/
def execExp1 (o : Operands) (s : State) : Host.Outcome State Fault Refusal :=
  execute (.exp1 o) s expansionBody

/-- `exp2` (R194). -/
def execExp2 (o : Operands) (s : State) : Host.Outcome State Fault Refusal :=
  execute (.exp2 o) s expansionBody

/-- `exp3` (R195). -/
def execExp3 (o : Operands) (s : State) : Host.Outcome State Fault Refusal :=
  execute (.exp3 o) s expansionBody

/-- `exp4` (R196). -/
def execExp4 (o : Operands) (s : State) : Host.Outcome State Fault Refusal :=
  execute (.exp4 o) s expansionBody

end Sys2Proof.Machine
end

