-- ==== Sys2Proof/Machine/Dispatch.lean ====
section
/-! DEFINITION. `exec`: one arm per constructor of Instr (spec/opcode_table.json). It runs stages 3 to 6
of a step (41_step_and_operands.md R133) on the state at the start of the step. -/

namespace Sys2Proof.Machine

def exec (i : Instr) (s : State) : Host.Outcome State Fault Refusal :=
  match i with
  | .add o => Sys2Proof.Machine.execAdd o s
  | .sub o => Sys2Proof.Machine.execSub o s
  | .mul o => Sys2Proof.Machine.execMul o s
  | .div o => Sys2Proof.Machine.execDiv o s
  | .or o => Sys2Proof.Machine.execOr o s
  | .and o => Sys2Proof.Machine.execAnd o s
  | .xor o => Sys2Proof.Machine.execXor o s
  | .shl o => Sys2Proof.Machine.execShl o s
  | .shr o => Sys2Proof.Machine.execShr o s
  | .not o => Sys2Proof.Machine.execNot o s
  | .cmp o => Sys2Proof.Machine.execCmp o s
  | .jmp o => Sys2Proof.Machine.execJmp o s
  | .je o => Sys2Proof.Machine.execJe o s
  | .jl o => Sys2Proof.Machine.execJl o s
  | .jle o => Sys2Proof.Machine.execJle o s
  | .jne o => Sys2Proof.Machine.execJne o s
  | .jnl o => Sys2Proof.Machine.execJnl o s
  | .jnle o => Sys2Proof.Machine.execJnle o s
  | .call o => Sys2Proof.Machine.execCall o s
  | .ret o => Sys2Proof.Machine.execRet o s
  | .push o => Sys2Proof.Machine.execPush o s
  | .pop o => Sys2Proof.Machine.execPop o s
  | .swap o => Sys2Proof.Machine.execSwap o s
  | .alloc o => Sys2Proof.Machine.execAlloc o s
  | .free o => Sys2Proof.Machine.execFree o s
  | .entry o => Sys2Proof.Machine.execEntry o s
  | .hlt o => Sys2Proof.Machine.execHlt o s
  | .exp0 o => Sys2Proof.Machine.execExp0 o s
  | .exp1 o => Sys2Proof.Machine.execExp1 o s
  | .exp2 o => Sys2Proof.Machine.execExp2 o s
  | .exp3 o => Sys2Proof.Machine.execExp3 o s
  | .exp4 o => Sys2Proof.Machine.execExp4 o s

end Sys2Proof.Machine
end

