-- ==== Sys2Proof/Machine/Step.lean ====
section
/-! DEFINITION. One step of the core (41_step_and_operands.md R120, R133), and the placing of an
instruction where the next step fetches it. -/

namespace Sys2Proof.Machine

/-- `step()` of R133. While `status` is not Running the core does nothing (R120, log entry 2). A step
fetches (stages 1 and 2); `exec` is the rest (log entry 3). -/
def step (s : State) : Host.Outcome State Fault Refusal :=
  match s.status with
  | .running =>
    match s.fetch with
    | .error e => finish s (.error e)
    | .ok i => exec i s
  | .halted => .next s
  | .faulted _ => .next s

/-- The program with the words `ws` put at index `k`; cells between its old end and `k` are 0. -/
def placeWords (prog : List Word) (k : Nat) (ws : List Word) : List Word :=
  prog.take k ++ List.replicate (k - prog.length) 0 ++ ws ++ prog.drop (k + ws.length)

/-- The state with an instruction placed at `pc`, as four program words (the longest instruction,
R50), and the core running, so that the next step fetches it (log entry 6). -/
def State.withFetchWord (s : State) (nbits w : Nat) : State :=
  { s with prog := placeWords s.prog s.pc.toNat (tableWords nbits w), status := .running }

end Sys2Proof.Machine
end

