-- ==== Sys2Proof/Machine/Assembler.lean ====
section
/-! DEFINITION. What bits a program turns into (30_encoding.md R64 to R70), from lines of tokens to
the words of the object stream. Toolchain, not core: cutting text into tokens is left out (R4). -/

namespace Sys2Proof.Machine

/-- An operand token (R66). The number after `!` or `@` and a bare number are 32-bit words. The last
three are the texts that the grammar does not cover, `!rN`, `@rN` and `-k`
(93_implementation_defined.md U19). -/
inductive Token where
  | label (name : String)
  | reg (i : RegIndex)
  | value (v : Word)
  | stack (v : Word)
  | heap (v : Word)
  | stackReg (i : RegIndex)
  | heapReg (i : RegIndex)
  | minus (k : Nat)
  deriving DecidableEq, Repr

/-- A line that is not blank and no comment (R64): a label definition, a forward declaration, an
instruction with its operand tokens, or a line whose first word is no mnemonic (R65, U19). -/
inductive Line where
  | label (name : String)
  | forward (name : String)
  | instr (op : Opcode) (args : List Token)
  | noMnemonic (word : String)
  deriving DecidableEq, Repr

/-- Why the assembler rejects a program; it then produces no object stream. -/
inductive AsmError where
  /-- More than three operand tokens (R64). -/
  | tooManyOperands
  /-- A label reference to a name neither defined nor declared earlier in the text (R67). -/
  | unknownLabel (name : String)
  /-- A label reference to a name declared and never defined (R67). -/
  | undefinedLabel (name : String)
  /-- A name defined twice; the spec is silent (log entry 13). -/
  | duplicateLabel (name : String)
  /-- Operand text that the grammar does not cover: `!rN`, `@rN`, `-k` (U19). -/
  | uncoveredOperand (t : Token)
  /-- A word that is no mnemonic (R65, U19). -/
  | unknownMnemonic (word : String)
  /-- `validate` fails (R68, R91). -/
  | invalidShape
  /-- A small constant does not fit the derived width; the line is rejected (R70, log entry 13). -/
  | rangeError
  deriving DecidableEq, Repr

/-- The slot of a constant: small exactly when it survives the signed 8-bit round trip (R66). -/
def constSlot (l : Location) (v : Word) : Slot := if fits 8 v then .sconst l v else .lconst l v

/-- The word of a label reference: target address minus the referring instruction's own address,
modulo 2^32 (R67). -/
def labelDelta (target addr : Nat) : Word := BitVec.ofNat 32 target - BitVec.ofNat 32 addr

/-- A label's address in the symbol table. -/
def lookupLabel (name : String) : List (String × Nat) → Option Nat
  | [] => none
  | (n, a) :: rest => if n = name then some a else lookupLabel name rest

/-- The slot of a token in the instruction at word `addr` (R66, R67); `known` are the names met so
far, `table` the addresses of all labels. Operand text that the grammar does not cover is refused
(U19). DESIGN CHOICE: `@number`, which the source allows "where supported", is accepted under every
opcode (log entry 16), and no 32-bit offset after `!` is out of range (log entry 17). -/
def slotOfToken (table : List (String × Nat)) (known : List String) (addr : Nat) :
    Token → Except AsmError Slot
  | .reg i => .ok (.reg .direct i)
  | .value v => .ok (constSlot .direct v)
  | .stack v => .ok (constSlot .stack v)
  | .heap v => .ok (constSlot .heap v)
  | .stackReg i => .error (.uncoveredOperand (.stackReg i))
  | .heapReg i => .error (.uncoveredOperand (.heapReg i))
  | .minus k => .error (.uncoveredOperand (.minus k))
  | .label name =>
      if known.contains name then
        match lookupLabel name table with
        | some target => .ok (.lconst .direct (labelDelta target addr))
        | none => .error (.undefinedLabel name)
      else .error (.unknownLabel name)

/-- The three slots of a line's tokens, filled from slot 0; slots with no token are absent (R64). -/
def operandsOfTokens (table : List (String × Nat)) (known : List String) (addr : Nat)
    (args : List Token) : Except AsmError Operands :=
  match args with
  | [] => .ok {}
  | [a] => do
      let s0 ← slotOfToken table known addr a
      .ok { s0 := s0 }
  | [a, b] => do
      let s0 ← slotOfToken table known addr a
      let s1 ← slotOfToken table known addr b
      .ok { s0 := s0, s1 := s1 }
  | [a, b, c] => do
      let s0 ← slotOfToken table known addr a
      let s1 ← slotOfToken table known addr b
      let s2 ← slotOfToken table known addr c
      .ok { s0 := s0, s1 := s1, s2 := s2 }
  | _ => .error .tooManyOperands

/-- Whether a token becomes a large immediate, and so takes a trailing word (R66, R67). -/
def Token.isLarge : Token → Bool
  | .label _ => true
  | .reg _ => false
  | .value v => !fits 8 v
  | .stack v => !fits 8 v
  | .heap v => !fits 8 v
  | .stackReg _ => false
  | .heapReg _ => false
  | .minus _ => false

/-- How many words a line emits (R64, R68, R69). -/
def Line.length : Line → Nat
  | .label _ => 1
  | .forward _ => 0
  | .instr _ args => 1 + args.countP Token.isLarge
  | .noMnemonic _ => 0

/-- The addresses of all label definitions, in words (R64). -/
def labelTable : List Line → Nat → List (String × Nat)
  | [], _ => []
  | .label name :: rest, addr => (name, addr) :: labelTable rest (addr + 1)
  | .forward _ :: rest, addr => labelTable rest addr
  | .instr op args :: rest, addr => labelTable rest (addr + (Line.instr op args).length)
  | .noMnemonic _ :: rest, addr => labelTable rest addr

/-- The words of a record: rejected when `validate` fails or the record has no encoding (R68, R70). -/
def emit (c : Config) (i : Instr) : Except AsmError (List Word) :=
  if i.validate then
    match encode c i with
    | some (w, t) => .ok (w :: t)
    | none => .error .rangeError
  else .error .invalidShape

/-- The words of the lines from word `addr` on (R64, R68). DESIGN CHOICE: a name that is declared, never
defined and never referenced has nothing to patch and is no error (R67, log entry 18). -/
def assembleFrom (c : Config) (table : List (String × Nat)) :
    List String → Nat → List Line → Except AsmError (List Word)
  | _, _, [] => .ok []
  | known, addr, .label name :: rest => do
      let ws ← emit c (.entry {})
      let more ← assembleFrom c table (name :: known) (addr + 1) rest
      .ok (ws ++ more)
  | known, addr, .forward name :: rest => assembleFrom c table (name :: known) addr rest
  | known, addr, .instr op args :: rest => do
      let o ← operandsOfTokens table known addr args
      let ws ← emit c (Instr.ofRecord op o)
      let more ← assembleFrom c table known (addr + ws.length) rest
      .ok (ws ++ more)
  | _, _, .noMnemonic word :: _ => .error (.unknownMnemonic word)

/-- The first name that a symbol table defines twice. -/
def duplicate : List (String × Nat) → Option String
  | [] => none
  | (n, _) :: rest => if (lookupLabel n rest).isSome then some n else duplicate rest

/-- The program words of a text (R64 to R70). -/
def assemble (c : Config) (lines : List Line) : Except AsmError (List Word) :=
  let table := labelTable lines 0
  match duplicate table with
  | some name => .error (.duplicateLabel name)
  | none => assembleFrom c table [] 0 lines

end Sys2Proof.Machine
end

