-- ==== Sys2Proof/Machine/Loader.lean ====
section
/-! DEFINITION. The host interface: loading a program, reset, and what the host may read
(70_reset_and_hazards.md R230, R231, R234, 60_exceptions.md R216). -/

namespace Sys2Proof.Machine

/-- Why the loader rejects an object stream; the core is then never started (R216). -/
inductive LoadError where
  /-- The byte length is not a positive multiple of 4 (R216, R231). -/
  | badLength
  /-- More words than `PROG_LEN <= 2^32 - 1` allows (R6, log entry 10). -/
  | tooLong
  deriving DecidableEq, Repr

/-- The program words of an object stream (R231, R37). -/
def programOfBytes (bytes : List Byte) : Except LoadError (List Word) :=
  if bytes.length = 0 ∨ bytes.length % 4 ≠ 0 then .error .badLength
  else if bytes.length / 4 > 2 ^ 32 - 1 then .error .tooLong
  else .ok (wordsOfBytes bytes)

/-- `reset` (R230, R234): the reset state with the loaded program and the parameters kept. -/
def State.toReset (s : State) : State := State.resetWith s.cfg s.prog

/-- `load(bytes)` (R231, R234): allowed only while the core is in reset, so it leaves the core in its
reset state, with the new program. -/
def State.load (s : State) (bytes : List Byte) : Except LoadError State :=
  match programOfBytes bytes with
  | .error e => .error e
  | .ok prog => .ok (State.resetWith s.cfg prog)

/-- What a faulted core records (R200): the numeric code, and `info`, the address of the faulting
instruction, which is the unchanged `pc` (R207) and so has no storage of its own. -/
def State.faultRecord (s : State) : Option (Nat × Word) :=
  match s.status with
  | .running => none
  | .halted => none
  | .faulted c => some (c.code, s.pc)

/-- What the host may read after the run has ended (R234). -/
structure FinalState where
  pc : Word
  sp : Word
  hwm : Word
  z : Bool
  n : Bool
  regs : Vector Word 8
  stack : Memory
  heap : Memory
  deriving DecidableEq, Repr

/-- `status`, readable at any time (R234). -/
def State.hostStatus (s : State) : Status := s.status

/-- The final state, readable only when `status` is not Running (R234). -/
def State.hostFinal (s : State) : Option FinalState :=
  match s.status with
  | .running => none
  | .halted => some ⟨s.pc, s.sp, s.hwm, s.z, s.n, s.regs, s.stack, s.heap⟩
  | .faulted _ => some ⟨s.pc, s.sp, s.hwm, s.z, s.n, s.regs, s.stack, s.heap⟩

end Sys2Proof.Machine
end

