-- ==== Sys2Proof/Machine/Ports.lean ====
section
/-! DEFINITION. The codec as three combinational blocks: the decoder, encoder and validator ports
(40_codec.md R81 to R83). They add no behaviour to `decode`, `encode` and `validate`. -/

namespace Sys2Proof.Machine

/-- The decoder's outputs that are meaningless when `desc_error = 1` (R81, R87, log entry 14). -/
structure DecoderFields where
  state0 : BitVec 4
  state1 : BitVec 4
  state2 : BitVec 4
  val0 : Word
  val1 : Word
  val2 : Word
  nTrailing : BitVec 2
  deriving DecidableEq, Repr

/-- The decoder's outputs (R81). -/
structure DecoderOut where
  op : BitVec 5
  descError : Bool
  fields : Option DecoderFields
  deriving DecidableEq, Repr

/-- The value port of a slot: zero-extended index, constant, or 0 (R81). -/
def slotValuePort : Slot → Word
  | .absent => 0
  | .sconst _ v => v
  | .lconst _ v => v
  | .reg _ i => BitVec.ofNat 32 i.val

/-- The outputs for a decoded record (R81). -/
def decoderFields (c : Config) (i : Instr) : DecoderFields :=
  let o := i.operands
  { state0 := BitVec.ofNat 4 (c.digit o.s0.state)
    state1 := BitVec.ofNat 4 (c.digit o.s1.state)
    state2 := BitVec.ofNat 4 (c.digit o.s2.state)
    val0 := slotValuePort o.s0
    val1 := slotValuePort o.s1
    val2 := slotValuePort o.s2
    nTrailing := BitVec.ofNat 2 o.nTrailing }

/-- The decoder block (R81). -/
def decoderPorts (c : Config) (word : Word) : DecoderOut where
  op := BitVec.ofNat 5 (bits word.toNat 27 5)
  descError := decide (bits word.toNat 17 10 ≥ 1000)
  fields := (decode c word).map (decoderFields c)

/-- The inputs of the encoder (R82); the first four are the validator's (R83). -/
structure EncoderIn where
  op : BitVec 5
  state0 : BitVec 4
  state1 : BitVec 4
  state2 : BitVec 4
  val0 : Word
  val1 : Word
  val2 : Word
  deriving DecidableEq, Repr

/-- The slot that a state and a value port name: the value is ignored for an absent slot, and only
bits 2:0 are used for a register (R82). -/
def slotOfPort (v : Word) : SlotState → Slot
  | .absent => .absent
  | .present .sconst l => .sconst l v
  | .present .lconst l => .lconst l v
  | .present .reg l => .reg l (Fin.ofNat 8 (bits v.toNat 0 3))

/-- The record on the encoder's inputs; `none` when a state port is not a digit 0 to 9. -/
def recordOfPorts (c : Config) (p : EncoderIn) : Option Instr :=
  match c.opcodeMap[p.op.toNat]?, c.digitMap[p.state0.toNat]?, c.digitMap[p.state1.toNat]?,
    c.digitMap[p.state2.toNat]? with
  | some op, some t0, some t1, some t2 =>
      some (Instr.ofRecord op
        ⟨slotOfPort p.val0 t0, slotOfPort p.val1 t1, slotOfPort p.val2 t2⟩)
  | _, _, _, _ => none

/-- The encoder's outputs (R82). `trail` holds the meaningful trailing words; `word` is not to be
used on a range error (R85, log entry 14). -/
structure EncoderOut where
  word : Option Word
  trail : List Word
  nTrailing : BitVec 2
  rangeError : Bool
  deriving DecidableEq, Repr

/-- The encoder block (R82). -/
def encoderPorts (c : Config) (p : EncoderIn) : Option EncoderOut :=
  (recordOfPorts c p).map fun i =>
    { word := (encode c i).map Prod.fst
      trail := i.operands.trailing
      nTrailing := BitVec.ofNat 2 i.operands.nTrailing
      rangeError := !i.encodable }

/-- The validator block (R83). -/
def validatorPort (c : Config) (p : EncoderIn) : Option Bool :=
  (recordOfPorts c p).map Instr.validate

end Sys2Proof.Machine
end

