-- ==== Sys2Proof/WellFormed.lean ====
section
/-! DEFINITION. What is well formed: the parameters (00_scope.md R6) and an instruction record that
the assembler may write (40_codec.md R85, R91). -/

namespace Sys2Proof

/-- `OPCODE_MAP` is a bijection from the 32 mnemonics to 0 to 31 (R6). -/
abbrev Config.OpcodeMapOk (c : Config) : Prop :=
  c.opcodeMap.length = 32 ∧ c.opcodeMap.Nodup ∧ ∀ op ∈ defaultOpcodeMap, op ∈ c.opcodeMap

/-- `DIGIT_MAP` is a bijection from the ten descriptor states to 0 to 9 (R6). -/
abbrev Config.DigitMapOk (c : Config) : Prop :=
  c.digitMap.length = 10 ∧ c.digitMap.Nodup ∧ ∀ t ∈ defaultDigitMap, t ∈ c.digitMap

/-- The constraints of R6 on the parameters. -/
abbrev Config.Ok (c : Config) : Prop :=
  c.OpcodeMapOk ∧ c.DigitMapOk ∧
  (1 ≤ c.stackLimit ∧ c.stackLimit ≤ 2 ^ 32 - 1) ∧
  (1 ≤ c.heapLimit ∧ c.heapLimit ≤ 2 ^ 32 - 1) ∧
  1 ≤ c.pageWords

/-- A record the assembler may write: accepted by `validate` and encodable (R85, R91). The core also
runs records that are not (a word `entry r3`, R190), so no step asks for this. -/
abbrev Instr.WellFormed (i : Instr) : Prop := i.validate = true ∧ i.encodable = true

end Sys2Proof
end

