-- ==== Sys2Proof/Safety.lean ====
section
/-! DEFINITION. What a safe state is, when an instruction executes normally, what an instruction may
change, and the spec's own tables that statements are made against. -/

namespace Sys2Proof.Machine

/-! ### States -/

/-- A run has ended (R233): `status` is not Running. -/
abbrev State.Ended (s : State) : Prop := s.status ≠ .running

/-- A run has ended normally (R233). -/
abbrev State.EndedNormally (s : State) : Prop := s.status = .halted

/-- The invariant that every step keeps: the bounds of R6, R17, R24, the canonical form of the two
memories, cells below their limits, and what the flags and `status` can be together. -/
structure State.Inv (s : State) : Prop where
  /-- The parameters meet R6. -/
  cfgOk : s.cfg.Ok
  /-- `PROG_LEN <= 2^32 - 1` (R6). -/
  progLen : s.progLen ≤ 2 ^ 32 - 1
  /-- The stack ends at or below `STACK_LIMIT` (R17, R180). -/
  spLimit : s.sp.toNat ≤ s.cfg.stackLimit
  /-- The watermark is at or below `HEAP_LIMIT` (R184). -/
  hwmLimit : s.hwm.toNat ≤ s.cfg.heapLimit
  /-- The stack memory is in canonical form. -/
  stackWf : Memory.wf (stackBlank s.cfg) s.stack = true
  /-- The heap memory is in canonical form. -/
  heapWf : Memory.wf (heapBlank s.cfg) s.heap = true
  /-- No stack cell at or beyond the limit was written (R35). -/
  stackCells : ∀ p ∈ s.stack, p.1 < s.cfg.stackLimit
  /-- No heap cell at or beyond the limit was written (R35). -/
  heapCells : ∀ p ∈ s.heap, p.1 < s.cfg.heapLimit
  /-- `Z = 1` implies `N = 0` (R160). -/
  flags : s.z = true → s.n = false
  /-- A halted core was not landing: `hlt` is no `entry` (R191). -/
  haltedJ : s.status = .halted → s.j = false
  /-- A landing that ends in a fault ends in one of the first four (R123, R212). -/
  faultedJ : ∀ c, s.status = .faulted c → s.j = true →
    c = .fetchPastEnd ∨ c = .decodeInvalid ∨ c = .trailingPastEnd ∨ c = .badLanding
  /-- BadLanding leaves `J = 1` (R207). -/
  badLandingJ : s.status = .faulted .badLanding → s.j = true

/-! ### Instructions -/

/-- Every present slot resolves below its limit (R35, R125). -/
def State.inLimits (s : State) (o : Operands) : Bool :=
  o.toList.all fun x =>
    match s.locate x with
    | none => true
    | some l => s.inLimit l

/-- The instruction passes stages 3 to 5 (R123 to R125): no landing is due, it is valid, and its
slots resolve. These are conditions on the state and the operands alone. -/
structure State.Executes (s : State) (i : Instr) : Prop where
  notLanding : s.j = false
  valid : i.validate = true
  inLimits : s.inLimits i.operands = true

/-- The places an instruction stores to (R12, R150, R149, R168, R180 to R184): the destination slots,
located as stage 5 does from the state at its start, and the cell a push writes. -/
def State.destinations (s : State) (i : Instr) : List Loc :=
  match i with
  | .add o | .sub o | .mul o | .div o | .or o | .and o | .xor o | .shl o | .shr o =>
      ((s.locate o.s2).or (s.locate o.s0)).toList
  | .not o => ((s.locate o.s1).or (s.locate o.s0)).toList
  | .pop o => (s.locate o.s0).toList
  | .swap o => (s.locate o.s0).toList ++ (s.locate o.s1).toList
  | .alloc o => (s.locate o.s1).toList
  | .push _ | .call _ => [.stackCell s.sp.toNat]
  | .cmp _ | .jmp _ | .je _ | .jl _ | .jle _ | .jne _ | .jnl _ | .jnle _ | .ret _ | .free _
  | .entry _ | .hlt _ | .exp0 _ | .exp1 _ | .exp2 _ | .exp3 _ | .exp4 _ => []

/-- What an instruction leaves unchanged when it takes `s` to `t` (R12, R19, R22 to R24, R29). -/
structure Frame (i : Instr) (s t : State) : Prop where
  regs : ∀ r, Loc.reg r ∉ s.destinations i → t.reg r = s.reg r
  stack : ∀ a, Loc.stackCell a ∉ s.destinations i → t.stackCell a = s.stackCell a
  heap : ∀ a, Loc.heapCell a ∉ s.destinations i → t.heapCell a = s.heapCell a
  prog : t.prog = s.prog
  cfg : t.cfg = s.cfg
  sp : i.opcode ∉ [.push, .pop, .call, .ret] → t.sp = s.sp
  hwm : i.opcode ≠ .alloc → t.hwm = s.hwm
  flags : i.opcode ≠ .cmp → t.z = s.z ∧ t.n = s.n
  j : i.opcode ∉ [.jmp, .je, .jl, .jle, .jne, .jnl, .jnle, .call, .entry] → t.j = s.j
  status : t.status = s.status ∨ (∃ c, t.status = .faulted c) ∨
    (i.opcode = .hlt ∧ t.status = .halted)

/-! ### Tables of the spec -/

/-- The conditional jumps and when they are taken, from `Z` and `N`: the table of R172. -/
def conditionalJumps : List ((Operands → Instr) × (Bool → Bool → Bool)) :=
  [(.je, fun z _ => z == true), (.jne, fun z _ => z == false),
   (.jl, fun _ n => n == true), (.jnl, fun _ n => n == false),
   (.jle, fun z n => z == true || n == true), (.jnle, fun z n => z == false && n == false)]

/-- The default opcode numbers: the table of R56. -/
def opcodeNumbers : List (Nat × Opcode) :=
  [(0, .add), (1, .sub), (2, .mul), (3, .div), (4, .or), (5, .and), (6, .xor), (7, .shl),
   (8, .shr), (9, .not), (10, .cmp), (11, .jmp), (12, .je), (13, .jl), (14, .jle), (15, .jne),
   (16, .jnl), (17, .jnle), (18, .call), (19, .ret), (20, .push), (21, .pop), (22, .swap),
   (23, .alloc), (24, .free), (25, .entry), (26, .hlt), (27, .exp0), (28, .exp1), (29, .exp2),
   (30, .exp3), (31, .exp4)]

/-- The default descriptor digits: the table of R53. -/
def stateDigits : List (Nat × SlotState) :=
  [(0, .absent), (1, .present .sconst .direct), (2, .present .lconst .direct),
   (3, .present .reg .direct), (4, .present .sconst .stack), (5, .present .lconst .stack),
   (6, .present .reg .stack), (7, .present .sconst .heap), (8, .present .lconst .heap),
   (9, .present .reg .heap)]

/-- The condition of R104 on the three descriptor digits, for each opcode. -/
def validDigits (op : Opcode) (d0 d1 d2 : Nat) : Bool :=
  match op with
  | .ret | .entry | .hlt => d0 == 0 && d1 == 0 && d2 == 0
  | .add | .sub | .mul | .div | .or | .and | .xor | .shl | .shr =>
      decide (d0 ≥ 1) && decide (d1 ≥ 1) && ((d2 == 0 && decide (d0 ≥ 3)) || decide (d2 ≥ 3))
  | .not => decide (d0 ≥ 1) && d2 == 0 && ((d1 == 0 && decide (d0 ≥ 3)) || decide (d1 ≥ 3))
  | .cmp => decide (d0 ≥ 1) && decide (d1 ≥ 1) && d2 == 0
  | .jmp | .je | .jl | .jle | .jne | .jnl | .jnle | .call | .push | .free =>
      decide (d0 ≥ 1) && d1 == 0 && d2 == 0
  | .pop => decide (d0 ≥ 3) && d1 == 0 && d2 == 0
  | .swap => decide (d0 ≥ 3) && decide (d1 ≥ 3) && d2 == 0
  | .alloc => decide (d0 ≥ 1) && decide (d1 ≥ 3) && d2 == 0
  | .exp0 | .exp1 | .exp2 | .exp3 | .exp4 => false

/-- How far R54's cursor moves for a slot: 3 for a register, `w` for an sconst, else 0. -/
def cursorStep (w : Nat) : Slot → Nat
  | .absent => 0
  | .sconst _ _ => w
  | .lconst _ _ => 0
  | .reg _ _ => 3

/-- The word `v` holds a slot's payload from bit `c` up: a register's index in 3 bits, an sconst's low
`w` bits; any other slot has none (R54, R57, R58). -/
def HoldsPayload (v w c : Nat) : Slot → Prop
  | .absent => True
  | .sconst _ x => v / 2 ^ c % 2 ^ w = x.toNat % 2 ^ w
  | .lconst _ _ => True
  | .reg _ i => v / 2 ^ c % 2 ^ 3 = i.val

/-- The number of unused low payload bits of a record's shape, `17 - (3*R + S*w)` (R54, R55). -/
def unusedBits (o : Operands) : Nat :=
  17 - (3 * countKind .reg o.states + countKind .sconst o.states * o.width)

end Sys2Proof.Machine
end

