-- ==== Sys2Proof/Certificates/Slice0/Obligations.lean ====
section
/-! DEFINITION. The statements for the provers. A docstring names the rule of spec/ that a statement
formalises; "decision D<n>" is a row of 92_eei_decisions.md, the spec's own choice. -/

open Sys2Proof Sys2Proof.Machine

/-! ### The codec -/

/-- R105: the round trip on the record side, for every encodable record, under every bijective
opcode and digit map. -/
def Obligations.DecodeOfEncodeIsTheRecord : Prop :=
  ∀ (c : Config) (i : Instr), c.OpcodeMapOk → c.DigitMapOk → i.encodable = true →
    ∃ w t, encode c i = some (w, t) ∧ t.length = i.operands.nTrailing ∧
      ∀ rest, decodeWords c (w :: t ++ rest) = .ok (i, rest)

/-- R106 (derived), R63: the round trip on the word side; the word comes back with its unused low
payload bits cleared, and a word that has none set comes back as it is. -/
def Obligations.EncodeOfDecodeClearsUnusedBits : Prop :=
  ∀ (c : Config) (w : Word) (ws rest : List Word) (i : Instr), c.OpcodeMapOk → c.DigitMapOk →
    decodeWords c (w :: ws) = .ok (i, rest) →
      let u := unusedBits i.operands
      ∃ t, ws = t ++ rest ∧ t.length = i.operands.nTrailing ∧ i.encodable = true ∧
        encode c i = some (BitVec.ofNat 32 (w.toNat / 2 ^ u * 2 ^ u), t) ∧
        (w.toNat % 2 ^ u = 0 → encode c i = some (w, t))

/-- R87, R108 (derived; decision D5): `decode` gives no record exactly for descriptors of 1000 and more, and two words
give the same record exactly when they differ only in unused payload bits. -/
def Obligations.DecodeTotalAndBlindToUnusedBits : Prop :=
  ∀ (c : Config) (w w' : Word) (i : Instr), c.OpcodeMapOk → c.DigitMapOk →
    (decode c w = none ↔ 1000 ≤ w.toNat / 2 ^ 17 % 2 ^ 10) ∧
    (decode c w = some i →
      (decode c w' = some i ↔
        w.toNat / 2 ^ unusedBits i.operands = w'.toNat / 2 ^ unusedBits i.operands))

/-- R107: every sconst slot gets the same width, the largest that the 17 bits less 3 for each
register allow. -/
def Obligations.DerivedWidthIsTheLargestFairWidth : Prop :=
  ∀ (t0 t1 t2 : SlotState), 1 ≤ countKind .sconst [t0, t1, t2] →
    ∃ w, derivedWidth [t0, t1, t2] = some w ∧
      (∀ l, (SlotState.present .sconst l).payloadBits w = w) ∧
      (∀ l, (SlotState.present .reg l).payloadBits w = 3) ∧
      3 * countKind .reg [t0, t1, t2] + countKind .sconst [t0, t1, t2] * w ≤ 17 ∧
      ∀ v, 3 * countKind .reg [t0, t1, t2] + countKind .sconst [t0, t1, t2] * v ≤ 17 → v ≤ w

/-- R51, R52, R54, R55 (decisions D1, D4, D6): the fields of an encoded word, with nothing running over.
In the payload field each slot's payload stands at the cursor, which starts at 17 and moves down in
slot order, and the bits left are 0. -/
def Obligations.EncodedWordHasTheThreeFields : Prop :=
  ∀ (c : Config) (i : Instr) (word : Word) (t : List Word), c.OpcodeMapOk → c.DigitMapOk →
    encode c i = some (word, t) →
      let o := i.operands
      let v := word.toNat
      let w := (17 - 3 * countKind .reg o.states) / countKind .sconst o.states
      let c0 := 17 - cursorStep w o.s0
      let c1 := c0 - cursorStep w o.s1
      let c2 := c1 - cursorStep w o.s2
      v / 2 ^ 27 = c.opcodeMap.idxOf i.opcode ∧
      v / 2 ^ 17 % 2 ^ 10 =
        100 * c.digitMap.idxOf o.s0.state + 10 * c.digitMap.idxOf o.s1.state +
          c.digitMap.idxOf o.s2.state ∧
      v / 2 ^ 17 % 2 ^ 10 ≤ 999 ∧
      HoldsPayload v w c0 o.s0 ∧ HoldsPayload v w c1 o.s1 ∧ HoldsPayload v w c2 o.s2 ∧
      v % 2 ^ c2 = 0

/-- R62: the length comes from the instruction word alone, 1 plus the number of descriptor digits
that are 2, 5 or 8, for every opcode and every word with a descriptor below 1000. -/
def Obligations.LengthFromTheDescriptorDigits : Prop :=
  ∀ (w : Word) (ws : List Word),
    let desc := w.toNat / 2 ^ 17 % 2 ^ 10
    let n := [desc / 100, desc / 10 % 10, desc % 10].countP (fun d => d == 2 || d == 5 || d == 8)
    desc < 1000 →
      (ws.length < n → decodeWords Config.default (w :: ws) = .error .trailingPastEnd) ∧
      (n ≤ ws.length → ∃ i, decodeWords Config.default (w :: ws) = .ok (i, ws.drop n) ∧
        i.length = 1 + n)

/-- R104 (derived; decisions D3, D8, D24): `validate` is the table of conditions on the default digits. -/
def Obligations.ValidateIsTheDigitTable : Prop :=
  ∀ i : Instr,
    i.validate = validDigits i.opcode (Config.default.digit i.operands.s0.state)
      (Config.default.digit i.operands.s1.state) (Config.default.digit i.operands.s2.state)

/-- R95, R100, R101, R103: the policies NONE, POP, SWAP and INVALID. -/
def Obligations.PoliciesNonePopSwapInvalid : Prop :=
  let writable : Slot → Prop := fun x =>
    x ≠ .absent ∧ (∀ v, x ≠ .sconst .direct v) ∧ (∀ v, x ≠ .lconst .direct v)
  ∀ o : Operands,
    ((Instr.ret o).validate = true ↔ o = ⟨.absent, .absent, .absent⟩) ∧
    ((Instr.entry o).validate = true ↔ o = ⟨.absent, .absent, .absent⟩) ∧
    ((Instr.hlt o).validate = true ↔ o = ⟨.absent, .absent, .absent⟩) ∧
    ((Instr.pop o).validate = true ↔ writable o.s0 ∧ o.s1 = .absent ∧ o.s2 = .absent) ∧
    ((Instr.swap o).validate = true ↔ writable o.s0 ∧ writable o.s1 ∧ o.s2 = .absent) ∧
    ∀ i ∈ [Instr.exp0 o, .exp1 o, .exp2 o, .exp3 o, .exp4 o], i.validate = false

/-- R85 (decision D7): `encode` reports a range error exactly when an sconst slot's signed value is
outside the range of the derived width. -/
def Obligations.RangeErrorIsOutsideTheSignedRange : Prop :=
  ∀ (c : Config) (i : Instr),
    encode c i = none ↔
      ∃ x ∈ i.operands.toList, ∃ l v, x = .sconst l v ∧
        ¬ (-(2 : Int) ^ (i.operands.width - 1) ≤ v.toInt ∧
          v.toInt ≤ (2 : Int) ^ (i.operands.width - 1) - 1)

/-- R109 (derived), R56, R53 (decisions D2, D3): the worked examples of the codec under the default
maps, and these maps themselves: each opcode number and each digit, as encoded and as decoded. -/
def Obligations.WorkedExamplesOfTheCodec : Prop :=
  decodeWords .default [0x02940800] =
    .ok (.add ⟨.reg .direct 0, .reg .direct 1, .absent⟩, []) ∧
  decodeWords .default [0x02720039] =
    .ok (.add ⟨.reg .direct 0, .sconst .direct 7, .reg .direct 1⟩, []) ∧
  decodeWords .default [0x79900000, 0xFFFFFFFC] =
    .ok (.jne ⟨.lconst .direct 0xFFFFFFFC, .absent, .absent⟩, []) ∧
  decodeWords .default [0x00EEA013] =
    .ok (.add ⟨.sconst .direct 40, .sconst .direct 2, .reg .heap 3⟩, []) ∧
  encode .default (.add ⟨.sconst .direct 100, .sconst .direct 2, .reg .heap 3⟩) = none ∧
  (∀ p ∈ opcodeNumbers, Config.default.opcodeNumber p.2 = p.1 ∧
    decode .default (BitVec.ofNat 32 (p.1 * 2 ^ 27)) = some (Instr.ofRecord p.2 {})) ∧
  (∀ p ∈ stateDigits, Config.default.digit p.2 = p.1 ∧
    ∀ k ∈ [100, 10, 1],
      (decode .default (BitVec.ofNat 32 (p.1 * k * 2 ^ 17))).map (fun i => i.operands.states) =
        some [if k = 100 then p.2 else .absent, if k = 10 then p.2 else .absent,
          if k = 1 then p.2 else .absent])

/-- R81, R82 (decision D9): the decoder block undoes the encoder block, slot by slot, large
immediates as placeholders. -/
def Obligations.DecoderPortsUndoEncoderPorts : Prop :=
  ∀ (c : Config) (p : EncoderIn) (i : Instr) (out : EncoderOut), c.OpcodeMapOk → c.DigitMapOk →
    recordOfPorts c p = some i → encoderPorts c p = some out → out.rangeError = false →
      ∃ w f, out.word = some w ∧
        decoderPorts c w = { op := p.op, descError := false, fields := some f } ∧
        f.state0 = p.state0 ∧ f.state1 = p.state1 ∧ f.state2 = p.state2 ∧
        f.nTrailing = out.nTrailing ∧
        f.val0 = slotValuePort i.operands.s0.placeholder ∧
        f.val1 = slotValuePort i.operands.s1.placeholder ∧
        f.val2 = slotValuePort i.operands.s2.placeholder

/-- R37, R231 (decision D12; the upper bound is log entry 10): what the loader makes of a byte stream. -/
def Obligations.LoaderBuildsLittleEndianWords : Prop :=
  ∀ (s : State) (bytes : List Byte),
    ((bytes.length = 0 ∨ bytes.length % 4 ≠ 0) → s.load bytes = .error .badLength) ∧
    (0 < bytes.length → bytes.length % 4 = 0 → bytes.length / 4 ≤ 2 ^ 32 - 1 →
      ∃ t, s.load bytes = .ok t ∧ t = State.resetWith s.cfg t.prog ∧
        t.progLen = bytes.length / 4 ∧
        ∀ k, k < t.progLen → ∃ w, t.prog[k]? = some w ∧
          w.toNat = (bytes.getD (4 * k) 0).toNat + 2 ^ 8 * (bytes.getD (4 * k + 1) 0).toNat +
            2 ^ 16 * (bytes.getD (4 * k + 2) 0).toNat + 2 ^ 24 * (bytes.getD (4 * k + 3) 0).toNat)

/-- R67, R161: a label reference is a large immediate whose word leads `jmp` from the referring
instruction to the label. -/
def Obligations.JumpToALabelReachesTheLabel : Prop :=
  ∀ (table : List (String × Nat)) (known : List String) (addr target : Nat) (name : String),
    name ∈ known → lookupLabel name table = some target →
      ∃ d, slotOfToken table known addr (.label name) = .ok (.lconst .direct d) ∧
        ∀ s : State, s.j = false → s.pc = BitVec.ofNat 32 addr →
          ∃ t, exec (.jmp ⟨.lconst .direct d, .absent, .absent⟩) s = .next t ∧
            t.pc = BitVec.ofNat 32 target

/-! ### Resolution, reading and writing -/

/-- R127: the direct location never faults; a register names itself, a constant is an immediate. -/
def Obligations.DirectSlotsResolveWithoutFault : Prop :=
  ∀ (s : State) (i : RegIndex) (v : Word),
    s.resolve (.reg .direct i) = .ok (some (.reg i)) ∧
    s.resolve (.sconst .direct v) = .ok (some (.imm v)) ∧
    s.resolve (.lconst .direct v) = .ok (some (.imm v))

/-- R126, R128, R129 (decisions D10, D16 to D18): the six memory addressing modes and their limit. -/
def Obligations.MemorySlotsAddressStackAndHeap : Prop :=
  ∀ (s : State) (x : Slot) (v : Word),
    ((x = .sconst .stack v ∨ x = .lconst .stack v ∨ ∃ i, x = .reg .stack i ∧ v = s.reg i) →
      let a := (s.sp.toNat + v.toNat) % 2 ^ 32
      s.resolve x =
        if a < s.cfg.stackLimit then .ok (some (.stackCell a)) else .error (.raise .memoryLimit)) ∧
    ((x = .sconst .heap v ∨ x = .lconst .heap v ∨ ∃ i, x = .reg .heap i ∧ v = s.reg i) →
      s.resolve x =
        if v.toNat < s.cfg.heapLimit then .ok (some (.heapCell v.toNat))
        else .error (.raise .memoryLimit))

/-- R131: a write to a register, stack cell or heap cell is read back and leaves every other place of
the three and everything else alone. That an immediate answers the refusal writeToImmediate is the
model's choice (log entry 11); no instruction ends in it. -/
def Obligations.WriteChangesOnePlace : Prop :=
  ∀ (s : State) (l : Loc) (v : Word), s.Inv →
    ((∀ u, l ≠ .imm u) →
      ∃ t, s.write l v = .ok t ∧ t.read l = v ∧ (∀ l', l' ≠ l → t.read l' = s.read l') ∧
        t.cfg = s.cfg ∧ t.prog = s.prog ∧ t.pc = s.pc ∧ t.sp = s.sp ∧ t.hwm = s.hwm ∧
        t.z = s.z ∧ t.n = s.n ∧ t.j = s.j ∧ t.status = s.status) ∧
    (∀ u, l = .imm u → s.write l v = .error (.refuse .writeToImmediate)) ∧
    ∀ i : Instr, exec i s ≠ .refused .writeToImmediate

/-! ### The step -/

/-- R133: while the core runs, a step is `exec` of the instruction in the program words from `pc` on.
That `exec` is stages 3 to 6 (R133's own `exec` is stage 6) is the model's choice (log entry 3). -/
def Obligations.StepRunsTheDecodedInstruction : Prop :=
  ∀ (s : State) (i : Instr) (rest : List Word), s.status = .running →
    decodeWords s.cfg (s.prog.drop s.pc.toNat) = .ok (i, rest) → step s = exec i s

/-- R120 (the step of a stopped core is log entry 2): a stopped core does nothing. -/
def Obligations.StoppedCoreDoesNothing : Prop :=
  ∀ s : State, s.status ≠ .running → step s = .next s

/-- R120: a core that is not running changes no state, and a step that raises a fault changes nothing
but `status`. That stepping a stopped core answers the same state, where R120 says that no step
happens, is the model's reading (log entry 2). -/
def Obligations.StepIsAtomicAndOnlyWhileRunning : Prop :=
  (∀ (s : State) (k : Nat), s.status ≠ .running → Host.Core.run core k s = .next s) ∧
  ∀ (s t : State) (c : Cause), s.status = .running → step s = .next t → t.status = .faulted c →
    t = { s with status := .faulted c }

/-- 93_implementation_defined.md U20 for a running core, and R93: every step and every instruction ends
in a next state, so no step refuses, writes an immediate or reads an absent slot. That a fault is a
next state is the model's reading (log entry 1), and so is the step of a stopped core (log entry 2). -/
def Obligations.EveryStepAnswersANextState : Prop :=
  (∀ s : State, ∃ t, step s = .next t) ∧ ∀ (i : Instr) (s : State), ∃ t, exec i s = .next t

/-- R201: a fetch at or past the end of the program. -/
def Obligations.FetchPastEndFaults : Prop :=
  ∀ s : State, s.status = .running → s.progLen ≤ s.pc.toNat →
    step s = .next { s with status := .faulted .fetchPastEnd }

/-- R202 (decision D5): a descriptor of 1000 or more, whatever `J` is. -/
def Obligations.BadDescriptorFaults : Prop :=
  ∀ (s : State) (w : Word), s.status = .running → s.prog[s.pc.toNat]? = some w →
    1000 ≤ w.toNat / 2 ^ 17 % 2 ^ 10 →
      step s = .next { s with status := .faulted .decodeInvalid }

/-- R203: a trailing word past the end, for every opcode, `entry` and invalid ones included. -/
def Obligations.TrailingPastEndFaults : Prop :=
  ∀ (s : State) (w : Word) (i : Instr), s.status = .running → s.prog[s.pc.toNat]? = some w →
    decode s.cfg w = some i → s.progLen < s.pc.toNat + 1 + i.operands.nTrailing →
      step s = .next { s with status := .faulted .trailingPastEnd }

/-- R123, R204: the landing check comes after the fetch of the whole instruction, whose faults go first,
and looks at the opcode alone. -/
def Obligations.LandingCheck : Prop :=
  ∀ s : State, s.status = .running →
    (decodeWords s.cfg (s.prog.drop s.pc.toNat) = .error .pastEnd →
      step s = .next { s with status := .faulted .fetchPastEnd }) ∧
    (decodeWords s.cfg (s.prog.drop s.pc.toNat) = .error .descError →
      step s = .next { s with status := .faulted .decodeInvalid }) ∧
    (decodeWords s.cfg (s.prog.drop s.pc.toNat) = .error .trailingPastEnd →
      step s = .next { s with status := .faulted .trailingPastEnd }) ∧
    ∀ (i : Instr) (rest : List Word),
      decodeWords s.cfg (s.prog.drop s.pc.toNat) = .ok (i, rest) →
        (i.opcode = .entry → step s =
          .next { s with j := false, pc := s.pc + 1 + BitVec.ofNat 32 i.operands.nTrailing }) ∧
        (i.opcode ≠ .entry → s.j = true →
          step s = .next { s with status := .faulted .badLanding })

/-- R124: an invalid record faults before anything else is done. -/
def Obligations.InvalidInstructionFaults : Prop :=
  ∀ (i : Instr) (s : State), i.opcode ≠ .entry → s.j = false → i.validate = false →
    exec i s = .next { s with status := .faulted .invalidInstruction }

/-- R125, R212: a slot past its limit faults before the instruction's own rule runs, whatever the
instruction would do with the slot. -/
def Obligations.ResolutionFaultsBeforeExecution : Prop :=
  ∀ (i : Instr) (s : State) (x : Slot), i.opcode ≠ .entry → s.j = false → i.validate = true →
    x ∈ i.operands.toList → s.resolve x = .error (.raise .memoryLimit) →
      exec i s = .next { s with status := .faulted .memoryLimit }

/-- R200, R207 (decisions D20, D21): the codes of the nine faults, and what a faulting step records:
its code and the address of the instruction that faulted. -/
def Obligations.FaultRecordsItsCodeAndAddress : Prop :=
  ([.fetchPastEnd, .decodeInvalid, .trailingPastEnd, .badLanding, .invalidInstruction, .memoryLimit,
    .stackUnderflow, .divideByZero, .unimplemented] : List Cause).map Cause.code =
      [1, 2, 3, 4, 5, 6, 7, 8, 9] ∧
  ∀ (s t : State) (c : Cause), s.status = .running → step s = .next t → t.status = .faulted c →
    t.faultRecord = some (c.code, s.pc)

/-- R44 (derived), R30: no step changes the program or a parameter. -/
def Obligations.ProgramAndParametersNeverChange : Prop :=
  ∀ s t : State, step s = .next t → t.prog = s.prog ∧ t.cfg = s.cfg

/-- R19: only `cmp` writes the flags, and it writes both; only the six conditional jumps read them. -/
def Obligations.FlagsAreCmpsAndTheConditionalJumps : Prop :=
  ∀ (i : Instr) (s t : State), exec i s = .next t →
    (i.opcode ≠ .cmp → t.z = s.z ∧ t.n = s.n) ∧
    (i.opcode ∉ [.je, .jl, .jle, .jne, .jnl, .jnle] → ∀ z n, ∃ u,
      exec i (s.setFlags z n) = .next u ∧ u.setFlags false false = t.setFlags false false ∧
      (i.opcode = .cmp → t.status = .running → u = t))

/-- R23, R172 (decision D23 for when a conditional jump is taken): while the core runs on, `J` is set
exactly by a taken jump and by `call`. -/
def Obligations.JIsSetByTakenJumpsAndCalls : Prop :=
  ∀ (i : Instr) (s t : State), s.j = false → exec i s = .next t → t.status = .running →
    (t.j = true ↔ i.opcode = .jmp ∨ i.opcode = .call ∨
      ∃ p ∈ conditionalJumps, p.1 i.operands = i ∧ p.2 s.z s.n = true)

/-- R22, R191, R197 (decisions D19, D21): the core halts only by `hlt`, which changes nothing else. -/
def Obligations.OnlyHltHalts : Prop :=
  ∀ s t : State, s.status = .running → step s = .next t → t.status = .halted →
    (∃ rest, decodeWords s.cfg (s.prog.drop s.pc.toNat) = .ok (.hlt {}, rest)) ∧
      t = { s with status := .halted }

/-- R24: the watermark is 0 after reset and never decreases, and only `alloc` reads and moves it: every
other instruction does the same whatever it is, heap accesses among them. -/
def Obligations.OnlyAllocUsesTheWatermark : Prop :=
  (∀ c prog, (State.resetWith c prog).hwm = 0) ∧ ∀ (i : Instr) (s t : State), s.Inv → exec i s = .next t →
    s.hwm.toNat ≤ t.hwm.toNat ∧
    (i.opcode ≠ .alloc → ∀ h, exec i (s.setHwm h) = .next (t.setHwm h) ∧ t.hwm = s.hwm)

/-- R35 (decision D10): the page size has no architectural effect. -/
def Obligations.PageSizeHasNoEffect : Prop :=
  ∀ (s t : State) (p : Nat), step s = .next t →
    step { s with cfg := { s.cfg with pageWords := p } } =
      .next { t with cfg := { t.cfg with pageWords := p } }

/-- R6, R17, R24, R35, R160, R207 (and log entry 8 for the form of the memories): the invariant is
kept by every step. -/
def Obligations.StepKeepsTheInvariant : Prop :=
  ∀ s t : State, s.Inv → step s = .next t → t.Inv

/-- R230: the invariant holds right after reset, for every program and all parameters of R6. -/
def Obligations.ResetHasTheInvariant : Prop :=
  State.reset.Inv ∧ ∀ (c : Config) (prog : List Word), c.Ok → prog.length ≤ 2 ^ 32 - 1 →
    (State.resetWith c prog).Inv

/-- R230 (decisions D11, D19): the reset values, element by element, for every loaded program. -/
def Obligations.ResetLeavesTheResetValues : Prop :=
  ∀ (s : State),
    let t := s.toReset
    t.pc = 0 ∧ t.hwm = 0 ∧ (∀ r, t.reg r = 0) ∧ t.sp = 0 ∧ t.z = false ∧ t.n = false ∧
      t.j = false ∧ t.status = .running ∧ t.prog = s.prog ∧
      ∀ v, s.cfg.memInit = some v → ∀ a, t.stackCell a = v ∧ t.heapCell a = v

/-! ### Instructions -/

/-- R140: `add` stores the sum modulo 2^32 in slot 2 if present, else in slot 0. -/
def Obligations.AddStoresTheSum : Prop :=
  ∀ (o : Operands) (s : State), s.Executes (.add o) →
    ∃ l0 l1 t, s.locate o.s0 = some l0 ∧ s.locate o.s1 = some l1 ∧
      s.write ((s.locate o.s2).getD l0)
        (BitVec.ofNat 32 (((s.read l0).toNat + (s.read l1).toNat) % 2 ^ 32)) = .ok t ∧
      exec (.add o) s = .next { t with pc := s.pc + 1 + BitVec.ofNat 32 o.nTrailing }

/-- R141, R142, R150 (decision D15): `sub` and `mul`. -/
def Obligations.SubAndMulStoreTheResult : Prop :=
  ∀ (o : Operands) (s : State),
    (s.Executes (.sub o) →
      ∃ l0 l1 t, s.locate o.s0 = some l0 ∧ s.locate o.s1 = some l1 ∧
        s.write ((s.locate o.s2).getD l0)
          (BitVec.ofInt 32 ((s.read l0).toNat - (s.read l1).toNat)) = .ok t ∧
        exec (.sub o) s = .next { t with pc := s.pc + 1 + BitVec.ofNat 32 o.nTrailing }) ∧
    (s.Executes (.mul o) →
      ∃ l0 l1 t, s.locate o.s0 = some l0 ∧ s.locate o.s1 = some l1 ∧
        s.write ((s.locate o.s2).getD l0)
          (BitVec.ofNat 32 (((s.read l0).toNat * (s.read l1).toNat) % 2 ^ 32)) = .ok t ∧
        exec (.mul o) s = .next { t with pc := s.pc + 1 + BitVec.ofNat 32 o.nTrailing })

/-- R143, R208 (decision D13): `div` stores the unsigned quotient, and a zero divisor faults with
nothing written. -/
def Obligations.DivStoresTheQuotientOrFaults : Prop :=
  ∀ (o : Operands) (s : State), s.Executes (.div o) →
    ∃ l0 l1, s.locate o.s0 = some l0 ∧ s.locate o.s1 = some l1 ∧
      (s.read l1 = 0 → exec (.div o) s = .next { s with status := .faulted .divideByZero }) ∧
      (s.read l1 ≠ 0 →
        ∃ t, s.write ((s.locate o.s2).getD l0)
            (BitVec.ofNat 32 ((s.read l0).toNat / (s.read l1).toNat)) = .ok t ∧
          exec (.div o) s = .next { t with pc := s.pc + 1 + BitVec.ofNat 32 o.nTrailing })

/-- R144, R145, R146: `or`, `and` and `xor` bit by bit. -/
def Obligations.OrAndXorWorkBitByBit : Prop :=
  ∀ p ∈ [(Instr.or, fun a b : Bool => a || b), (Instr.and, fun a b => a && b),
      (Instr.xor, fun a b => a ^^ b)],
    ∀ (o : Operands) (s : State), s.Executes (p.1 o) →
      ∃ l0 l1 r t, s.locate o.s0 = some l0 ∧ s.locate o.s1 = some l1 ∧
        (∀ k, k < 32 → r.getLsbD k = p.2 ((s.read l0).getLsbD k) ((s.read l1).getLsbD k)) ∧
        s.write ((s.locate o.s2).getD l0) r = .ok t ∧
        exec (p.1 o) s = .next { t with pc := s.pc + 1 + BitVec.ofNat 32 o.nTrailing }

/-- R147, R148 (decision D14): the shifts, with the count not reduced. -/
def Obligations.ShiftsUseTheWholeCount : Prop :=
  ∀ p ∈ [(Instr.shl, fun a b => a * 2 ^ b % 2 ^ 32), (Instr.shr, fun a b => a / 2 ^ b)],
    ∀ (o : Operands) (s : State), s.Executes (p.1 o) →
      ∃ l0 l1 t, s.locate o.s0 = some l0 ∧ s.locate o.s1 = some l1 ∧
        s.write ((s.locate o.s2).getD l0)
          (BitVec.ofNat 32 (if (s.read l1).toNat ≥ 32 then 0
            else p.2 (s.read l0).toNat (s.read l1).toNat)) = .ok t ∧
        exec (p.1 o) s = .next { t with pc := s.pc + 1 + BitVec.ofNat 32 o.nTrailing }

/-- R149 (decision D8): `not` stores the complement in slot 1 if present, else in slot 0. -/
def Obligations.NotStoresTheComplement : Prop :=
  ∀ (o : Operands) (s : State), s.Executes (.not o) →
    ∃ l0 t, s.locate o.s0 = some l0 ∧
      s.write ((s.locate o.s1).getD l0) (BitVec.ofNat 32 (2 ^ 32 - 1 - (s.read l0).toNat)) = .ok t ∧
      exec (.not o) s = .next { t with pc := s.pc + 1 + BitVec.ofNat 32 o.nTrailing }

/-- R160: `cmp` sets `Z` on equality and `N` from the top bit of the difference, and changes nothing
else but `pc`. -/
def Obligations.CmpSetsBothFlags : Prop :=
  ∀ (o : Operands) (s : State), s.Executes (.cmp o) →
    ∃ l0 l1, s.locate o.s0 = some l0 ∧ s.locate o.s1 = some l1 ∧
      exec (.cmp o) s = .next { s with
        z := decide ((s.read l0).toNat = (s.read l1).toNat)
        n := decide (((s.read l0).toNat + 2 ^ 32 - (s.read l1).toNat) % 2 ^ 32 ≥ 2 ^ 31)
        pc := s.pc + 1 + BitVec.ofNat 32 o.nTrailing }

/-- R161: `jmp` goes to its own address plus the operand and sets `J`. -/
def Obligations.JmpIsRelativeToItsOwnAddress : Prop :=
  ∀ (o : Operands) (s : State), s.Executes (.jmp o) →
    ∃ l0, s.locate o.s0 = some l0 ∧
      exec (.jmp o) s = .next { s with
        pc := BitVec.ofNat 32 ((s.pc.toNat + (s.read l0).toNat) % 2 ^ 32), j := true }

/-- R162 to R167, R170, R172 (decisions D23, D30): the six conditional jumps. -/
def Obligations.ConditionalJumpsFollowTheTable : Prop :=
  ∀ p ∈ conditionalJumps, ∀ (o : Operands) (s : State), s.Executes (p.1 o) →
    ∃ l0, s.locate o.s0 = some l0 ∧
      exec (p.1 o) s = .next (
        if p.2 s.z s.n then
          { s with pc := BitVec.ofNat 32 ((s.pc.toNat + (s.read l0).toNat) % 2 ^ 32), j := true }
        else { s with pc := s.pc + 1 + BitVec.ofNat 32 o.nTrailing })

/-- R168 (decision D16): `call` pushes the post-fetch `pc` and jumps relative to its own address; at
the stack limit it faults. -/
def Obligations.CallPushesTheReturnAddress : Prop :=
  ∀ (o : Operands) (s : State), s.Executes (.call o) →
    ∃ l0, s.locate o.s0 = some l0 ∧
      (s.sp.toNat < s.cfg.stackLimit →
        exec (.call o) s = .next { s.setStackCell s.sp.toNat
            (s.pc + 1 + BitVec.ofNat 32 o.nTrailing) with
          sp := s.sp + 1
          pc := BitVec.ofNat 32 ((s.pc.toNat + (s.read l0).toNat) % 2 ^ 32)
          j := true }) ∧
      (s.cfg.stackLimit ≤ s.sp.toNat →
        exec (.call o) s = .next { s with status := .faulted .memoryLimit })

/-- R169, R206 (decision D16): `ret` pops the program counter without a landing; on an empty stack it
faults. -/
def Obligations.RetPopsTheProgramCounter : Prop :=
  ∀ (o : Operands) (s : State), s.Executes (.ret o) →
    (s.sp ≠ 0 → exec (.ret o) s =
      .next { s with pc := s.stackCell (s.sp.toNat - 1), sp := s.sp - 1, j := false }) ∧
    (s.sp = 0 → exec (.ret o) s = .next { s with status := .faulted .stackUnderflow })

/-- R168 (decision D16): a `ret` that finds the stack as a `call` left it goes to the instruction
after the `call`, with `sp` as before the `call`. -/
def Obligations.RetUndoesCall : Prop :=
  ∀ (o : Operands) (s t u : State), s.Inv → s.Executes (.call o) → s.status = .running →
    exec (.call o) s = .next t → t.status = .running →
    u.j = false → u.sp = t.sp → u.stackCell s.sp.toNat = t.stackCell s.sp.toNat →
      ∃ v, exec (.ret {}) u = .next v ∧ v.pc = s.pc + 1 + BitVec.ofNat 32 o.nTrailing ∧
        v.sp = s.sp ∧ v.j = false

/-- R180 (decision D16): `push` writes the first free cell and raises `sp`; at the limit it faults. -/
def Obligations.PushWritesTheFirstFreeCell : Prop :=
  ∀ (o : Operands) (s : State), s.Executes (.push o) →
    ∃ l0, s.locate o.s0 = some l0 ∧
      (s.sp.toNat < s.cfg.stackLimit →
        exec (.push o) s = .next { s.setStackCell s.sp.toNat (s.read l0) with
          sp := s.sp + 1, pc := s.pc + 1 + BitVec.ofNat 32 o.nTrailing }) ∧
      (s.cfg.stackLimit ≤ s.sp.toNat →
        exec (.push o) s = .next { s with status := .faulted .memoryLimit })

/-- R181, R206 (decision D16): `pop` writes the top of the stack to its destination, located with the
old `sp`; on an empty stack it faults. -/
def Obligations.PopWritesTheTopOfStack : Prop :=
  ∀ (o : Operands) (s : State), s.Executes (.pop o) →
    ∃ l0, s.locate o.s0 = some l0 ∧
      (s.sp ≠ 0 →
        ∃ t, (State.write { s with sp := s.sp - 1 } l0 (s.stackCell (s.sp.toNat - 1))) = .ok t ∧
          exec (.pop o) s = .next { t with pc := s.pc + 1 + BitVec.ofNat 32 o.nTrailing }) ∧
      (s.sp = 0 → exec (.pop o) s = .next { s with status := .faulted .stackUnderflow })

/-- R182: `swap` exchanges the contents of its two places and changes nothing else but `pc`. -/
def Obligations.SwapExchangesTwoPlaces : Prop :=
  ∀ (o : Operands) (s : State), s.Inv → s.Executes (.swap o) →
    ∃ l0 l1 t, s.locate o.s0 = some l0 ∧ s.locate o.s1 = some l1 ∧
      exec (.swap o) s = .next t ∧ t.read l0 = s.read l1 ∧ t.read l1 = s.read l0 ∧
      (∀ l, l ≠ l0 → l ≠ l1 → t.read l = s.read l) ∧
      t.pc = s.pc + 1 + BitVec.ofNat 32 o.nTrailing ∧ t.cfg = s.cfg ∧ t.prog = s.prog ∧
      t.sp = s.sp ∧ t.hwm = s.hwm ∧ t.z = s.z ∧ t.n = s.n ∧ t.j = s.j ∧ t.status = s.status

/-- R184 (decision D29): `alloc` stores the old watermark and moves it; past the limit it faults. -/
def Obligations.AllocReturnsTheOldWatermark : Prop :=
  ∀ (o : Operands) (s : State), s.Executes (.alloc o) →
    ∃ l0 l1, s.locate o.s0 = some l0 ∧ s.locate o.s1 = some l1 ∧
      (s.hwm.toNat + (s.read l0).toNat ≤ s.cfg.heapLimit →
        ∃ t, (State.write { s with
            hwm := BitVec.ofNat 32 (s.hwm.toNat + (s.read l0).toNat) } l1 s.hwm) = .ok t ∧
          exec (.alloc o) s = .next { t with pc := s.pc + 1 + BitVec.ofNat 32 o.nTrailing }) ∧
      (s.cfg.heapLimit < s.hwm.toNat + (s.read l0).toNat →
        exec (.alloc o) s = .next { s with status := .faulted .memoryLimit })

/-- R184, R185 (decision D29): each of two `alloc`s, however many steps apart, returns its base, and the
two ranges have no cell in common. -/
def Obligations.AllocatedRangesNeverOverlap : Prop :=
  ∀ (o o' : Operands) (s t u v : State) (k : Nat) (l0 l1 m0 m1 : Loc), s.Inv → s.status = .running →
    s.locate o.s0 = some l0 → s.locate o.s1 = some l1 →
    exec (.alloc o) s = .next t → t.status = .running →
    Host.Core.run core k t = .next u →
    u.locate o'.s0 = some m0 → u.locate o'.s1 = some m1 →
    exec (.alloc o') u = .next v → v.status = .running →
      t.read l1 = s.hwm ∧ v.read m1 = u.hwm ∧
        ∀ a : Nat, ¬ ((s.hwm.toNat ≤ a ∧ a < s.hwm.toNat + (s.read l0).toNat) ∧
          (u.hwm.toNat ≤ a ∧ a < u.hwm.toNat + (u.read m0).toNat))

/-- R186, R210 (decision D24): `free` raises Unimplemented and changes nothing else. -/
def Obligations.FreeRaisesUnimplemented : Prop :=
  ∀ (o : Operands) (s : State), s.Executes (.free o) →
    exec (.free o) s = .next { s with status := .faulted .unimplemented }

/-- R190: `entry` clears `J`, goes to the next instruction and does nothing else, whatever its
operands are. -/
def Obligations.EntryOnlyClearsJ : Prop :=
  ∀ (o : Operands) (s : State),
    exec (.entry o) s = .next { s with
      j := false, pc := s.pc + 1 + BitVec.ofNat 32 o.nTrailing }

/-- R191 (decision D21): `hlt` changes `status` to Halted and nothing else. -/
def Obligations.HltOnlyHalts : Prop :=
  ∀ (o : Operands) (s : State), s.Executes (.hlt o) →
    exec (.hlt o) s = .next { s with status := .halted }

/-- R192 to R196: an expansion opcode raises InvalidInstruction for every shape, and BadLanding when
it is landed on; nothing else changes. -/
def Obligations.ExpansionOpcodesAreInvalid : Prop :=
  ∀ (o : Operands) (s : State), ∀ i ∈ [Instr.exp0 o, .exp1 o, .exp2 o, .exp3 o, .exp4 o],
    (s.j = false → exec i s = .next { s with status := .faulted .invalidInstruction }) ∧
    (s.j = true → exec i s = .next { s with status := .faulted .badLanding })

/-! ### Frames -/

/-- R12, R150, R149: what the ten arithmetic and bitwise instructions leave unchanged. -/
def Obligations.FrameOfArithmetic : Prop :=
  ∀ (o : Operands) (s t : State),
    ∀ i ∈ [Instr.add o, .sub o, .mul o, .div o, .or o, .and o, .xor o, .shl o, .shr o, .not o],
      exec i s = .next t → Frame i s t

/-- R12, R168, R180 to R184: what the storing stack and heap instructions leave unchanged. -/
def Obligations.FrameOfStackAndHeap : Prop :=
  ∀ (o : Operands) (s t : State),
    ∀ i ∈ [Instr.push o, .pop o, .swap o, .alloc o, .call o], exec i s = .next t → Frame i s t

/-- R12, R19: what the instructions that store nothing leave unchanged: all registers and all memory
among it. -/
def Obligations.FrameOfTheRest : Prop :=
  ∀ (o : Operands) (s t : State),
    ∀ i ∈ [Instr.cmp o, .jmp o, .je o, .jl o, .jle o, .jne o, .jnl o, .jnle o, .ret o, .free o,
        .entry o, .hlt o, .exp0 o, .exp1 o, .exp2 o, .exp3 o, .exp4 o],
      exec i s = .next t → Frame i s t
end

