-- ==== Sys2Proof/Laws/Memory.lean ====
section
/-! SUPPORT. The laws of a memory: reading after writing, the canonical form, and the indices a write
may add. -/

namespace Sys2Proof.Machine.Memory

variable {blank : Nat → Word}

@[simp] theorem read_nil (a : Nat) : Memory.read blank [] a = blank a := rfl

theorem read_cons_ne {a b : Nat} (v : Word) (m : Memory) (h : a ≠ b) :
    Memory.read blank ((b, v) :: m) a = Memory.read blank m a := by simp [Memory.read, h]

@[simp] theorem read_cons_self (a : Nat) (v : Word) (m : Memory) :
    Memory.read blank ((a, v) :: m) a = v := by simp [Memory.read]

/-- A write leaves every other cell alone; it needs no canonical form. -/
theorem read_write_ne (m : Memory) {a b : Nat} (v : Word) (h : b ≠ a) :
    Memory.read blank (Memory.write blank m a v) b = Memory.read blank m b := by
  induction m with
  | nil => simp only [Memory.write, Memory.cons]; split <;> simp [Memory.read, h]
  | cons p m ih =>
    obtain ⟨c, u⟩ := p
    simp only [Memory.write, Memory.cons]
    split
    · split <;> simp [Memory.read, h]
    · split
      · rename_i hac; subst hac
        split <;> simp [Memory.read, h]
      · simp only [Memory.read]; split
        · rfl
        · exact ih

theorem wfFrom_cons {lo a : Nat} {v : Word} {m : Memory} :
    Memory.wfFrom blank lo ((a, v) :: m) = true ↔
      lo ≤ a ∧ v ≠ blank a ∧ Memory.wfFrom blank (a + 1) m = true := by
  simp [Memory.wfFrom, and_assoc]

theorem wfFrom_mono {lo lo' : Nat} {m : Memory} (h : Memory.wfFrom blank lo m = true) (hl : lo' ≤ lo) :
    Memory.wfFrom blank lo' m = true := by
  cases m with
  | nil => rfl
  | cons p m =>
    obtain ⟨a, v⟩ := p
    rw [wfFrom_cons] at h ⊢
    exact ⟨hl.trans h.1, h.2⟩

/-- Below its first index a canonical memory reads blank. -/
theorem read_of_lt {lo : Nat} {m : Memory} (h : Memory.wfFrom blank lo m = true) {a : Nat} (ha : a < lo) :
    Memory.read blank m a = blank a := by
  induction m generalizing lo with
  | nil => rfl
  | cons p m ih =>
    obtain ⟨b, v⟩ := p
    rw [wfFrom_cons] at h
    rw [read_cons_ne v m (by omega)]
    exact ih h.2.2 (by omega)

/-- Reading back what was written, in a canonical memory. -/
theorem read_write_self {lo : Nat} {m : Memory} (h : Memory.wfFrom blank lo m = true) (a : Nat) (v : Word) :
    Memory.read blank (Memory.write blank m a v) a = v := by
  induction m generalizing lo with
  | nil => simp only [Memory.write, Memory.cons]; split <;> simp_all [Memory.read]
  | cons p m ih =>
    obtain ⟨b, u⟩ := p
    have h' := wfFrom_cons.mp h
    simp only [Memory.write, Memory.cons]
    split
    · rename_i hab
      split
      · rename_i hv
        rw [read_cons_ne u m (by omega), read_of_lt h'.2.2 (by omega), hv]
      · simp
    · split
      · rename_i hab; subst hab
        split
        · rename_i hv; rw [read_of_lt h'.2.2 (by omega), hv]
        · simp
      · rw [read_cons_ne u _ (by assumption)]
        exact ih h'.2.2

theorem wfFrom_consCell {lo a : Nat} {v : Word} {m : Memory} (h : Memory.wfFrom blank (a + 1) m = true)
    (hl : lo ≤ a) : Memory.wfFrom blank lo (Memory.cons blank a v m) = true := by
  unfold Memory.cons
  split
  · exact wfFrom_mono h (by omega)
  · exact wfFrom_cons.mpr ⟨hl, by assumption, h⟩

/-- A write keeps the canonical form. -/
theorem wfFrom_write {lo : Nat} {m : Memory} (h : Memory.wfFrom blank lo m = true) {a : Nat} (ha : lo ≤ a)
    (v : Word) : Memory.wfFrom blank lo (Memory.write blank m a v) = true := by
  induction m generalizing lo with
  | nil => exact wfFrom_consCell rfl ha
  | cons p m ih =>
    obtain ⟨b, u⟩ := p
    have h' := wfFrom_cons.mp h
    simp only [Memory.write]
    split
    · exact wfFrom_consCell (wfFrom_cons.mpr ⟨by omega, h'.2⟩) ha
    · split
      · rename_i hab; subst hab
        exact wfFrom_consCell h'.2.2 ha
      · exact wfFrom_cons.mpr ⟨h'.1, h'.2.1, ih h'.2.2 (by omega)⟩

/-- A write keeps the canonical form (log entry 8). -/
theorem wf_write {m : Memory} (h : Memory.wf blank m = true) (a : Nat) (v : Word) :
    Memory.wf blank (Memory.write blank m a v) = true := wfFrom_write h (Nat.zero_le a) v

@[simp] theorem wf_nil : Memory.wf blank [] = true := rfl

/-- Reading back what was written, in a canonical memory. -/
theorem read_write {m : Memory} (h : Memory.wf blank m = true) (a : Nat) (v : Word) :
    Memory.read blank (Memory.write blank m a v) a = v := read_write_self h a v

/-- A listed index after a write was listed before, or is the one written. -/
theorem mem_write {m : Memory} {a : Nat} {v : Word} {p : Nat × Word}
    (h : p ∈ Memory.write blank m a v) : p ∈ m ∨ p.1 = a := by
  induction m with
  | nil =>
    simp only [Memory.write, Memory.cons] at h
    split at h <;> simp_all
  | cons q m ih =>
    obtain ⟨b, u⟩ := q
    simp only [Memory.write, Memory.cons] at h
    split at h
    · split at h
      · exact .inl h
      · rcases List.mem_cons.mp h with rfl | h
        · exact .inr rfl
        · exact .inl h
    · split at h
      · split at h
        · exact .inl (List.mem_cons_of_mem _ h)
        · rcases List.mem_cons.mp h with rfl | h
          · exact .inr rfl
          · exact .inl (List.mem_cons_of_mem _ h)
      · rcases List.mem_cons.mp h with h | h
        · exact .inl (by simp [h])
        · rcases ih h with h | h
          · exact .inl (by simp [h])
          · exact .inr h

/-- Canonical memories that read the same are the same list. -/
theorem ext_of_wfFrom {lo : Nat} {m m' : Memory} (h : Memory.wfFrom blank lo m = true)
    (h' : Memory.wfFrom blank lo m' = true) (he : ∀ a, Memory.read blank m a = Memory.read blank m' a) :
    m = m' := by
  induction m generalizing lo m' with
  | nil =>
    cases m' with
    | nil => rfl
    | cons q m' =>
      obtain ⟨b, u⟩ := q
      have hb := wfFrom_cons.mp h'
      have := he b
      simp only [read_nil, read_cons_self] at this
      exact absurd this.symm hb.2.1
  | cons p m ih =>
    obtain ⟨a, v⟩ := p
    have ha := wfFrom_cons.mp h
    cases m' with
    | nil =>
      have := he a
      simp only [read_nil, read_cons_self] at this
      exact absurd this ha.2.1
    | cons q m' =>
      obtain ⟨b, u⟩ := q
      have hb := wfFrom_cons.mp h'
      have hab : a = b := by
        rcases Nat.lt_trichotomy a b with hl | hl | hl
        · have := he a
          rw [read_cons_self, read_cons_ne u m' (by omega), read_of_lt hb.2.2 (by omega)] at this
          exact absurd this ha.2.1
        · exact hl
        · have := he b
          rw [read_cons_self, read_cons_ne v m (by omega), read_of_lt ha.2.2 (by omega)] at this
          exact absurd this.symm hb.2.1
      subst hab
      have hvu : v = u := by simpa using he a
      subst hvu
      congr 1
      refine ih ha.2.2 hb.2.2 fun c => ?_
      by_cases hc : c = a
      · subst hc; rw [read_of_lt ha.2.2 (by omega), read_of_lt hb.2.2 (by omega)]
      · have := he c
        rwa [read_cons_ne v m hc, read_cons_ne v m' hc] at this

end Sys2Proof.Machine.Memory
end

