-- ==== Sys2Proof/Laws/State.lean ====
section
/-! SUPPORT. One lemma per field of State per update, and per derived read per update that leaves it
alone, so that no proof unfolds a record update. -/

namespace Sys2Proof.Machine.State

variable (s : State)

/-! ### setReg -/

@[simp] theorem setReg_cfg (i : RegIndex) (v : Word) : (s.setReg i v).cfg = s.cfg := rfl
@[simp] theorem setReg_prog (i : RegIndex) (v : Word) : (s.setReg i v).prog = s.prog := rfl
@[simp] theorem setReg_regs (i : RegIndex) (v : Word) : (s.setReg i v).regs = s.regs.set i.val v := rfl
@[simp] theorem setReg_pc (i : RegIndex) (v : Word) : (s.setReg i v).pc = s.pc := rfl
@[simp] theorem setReg_sp (i : RegIndex) (v : Word) : (s.setReg i v).sp = s.sp := rfl
@[simp] theorem setReg_hwm (i : RegIndex) (v : Word) : (s.setReg i v).hwm = s.hwm := rfl
@[simp] theorem setReg_z (i : RegIndex) (v : Word) : (s.setReg i v).z = s.z := rfl
@[simp] theorem setReg_n (i : RegIndex) (v : Word) : (s.setReg i v).n = s.n := rfl
@[simp] theorem setReg_j (i : RegIndex) (v : Word) : (s.setReg i v).j = s.j := rfl
@[simp] theorem setReg_status (i : RegIndex) (v : Word) : (s.setReg i v).status = s.status := rfl
@[simp] theorem setReg_stack (i : RegIndex) (v : Word) : (s.setReg i v).stack = s.stack := rfl
@[simp] theorem setReg_heap (i : RegIndex) (v : Word) : (s.setReg i v).heap = s.heap := rfl

/-! ### setStackCell -/

@[simp] theorem setStackCell_cfg (a : Nat) (v : Word) : (s.setStackCell a v).cfg = s.cfg := rfl
@[simp] theorem setStackCell_prog (a : Nat) (v : Word) : (s.setStackCell a v).prog = s.prog := rfl
@[simp] theorem setStackCell_regs (a : Nat) (v : Word) : (s.setStackCell a v).regs = s.regs := rfl
@[simp] theorem setStackCell_pc (a : Nat) (v : Word) : (s.setStackCell a v).pc = s.pc := rfl
@[simp] theorem setStackCell_sp (a : Nat) (v : Word) : (s.setStackCell a v).sp = s.sp := rfl
@[simp] theorem setStackCell_hwm (a : Nat) (v : Word) : (s.setStackCell a v).hwm = s.hwm := rfl
@[simp] theorem setStackCell_z (a : Nat) (v : Word) : (s.setStackCell a v).z = s.z := rfl
@[simp] theorem setStackCell_n (a : Nat) (v : Word) : (s.setStackCell a v).n = s.n := rfl
@[simp] theorem setStackCell_j (a : Nat) (v : Word) : (s.setStackCell a v).j = s.j := rfl
@[simp] theorem setStackCell_status (a : Nat) (v : Word) : (s.setStackCell a v).status = s.status := rfl
@[simp] theorem setStackCell_stack (a : Nat) (v : Word) : (s.setStackCell a v).stack = Memory.write (stackBlank s.cfg) s.stack a v := rfl
@[simp] theorem setStackCell_heap (a : Nat) (v : Word) : (s.setStackCell a v).heap = s.heap := rfl

/-! ### setHeapCell -/

@[simp] theorem setHeapCell_cfg (a : Nat) (v : Word) : (s.setHeapCell a v).cfg = s.cfg := rfl
@[simp] theorem setHeapCell_prog (a : Nat) (v : Word) : (s.setHeapCell a v).prog = s.prog := rfl
@[simp] theorem setHeapCell_regs (a : Nat) (v : Word) : (s.setHeapCell a v).regs = s.regs := rfl
@[simp] theorem setHeapCell_pc (a : Nat) (v : Word) : (s.setHeapCell a v).pc = s.pc := rfl
@[simp] theorem setHeapCell_sp (a : Nat) (v : Word) : (s.setHeapCell a v).sp = s.sp := rfl
@[simp] theorem setHeapCell_hwm (a : Nat) (v : Word) : (s.setHeapCell a v).hwm = s.hwm := rfl
@[simp] theorem setHeapCell_z (a : Nat) (v : Word) : (s.setHeapCell a v).z = s.z := rfl
@[simp] theorem setHeapCell_n (a : Nat) (v : Word) : (s.setHeapCell a v).n = s.n := rfl
@[simp] theorem setHeapCell_j (a : Nat) (v : Word) : (s.setHeapCell a v).j = s.j := rfl
@[simp] theorem setHeapCell_status (a : Nat) (v : Word) : (s.setHeapCell a v).status = s.status := rfl
@[simp] theorem setHeapCell_stack (a : Nat) (v : Word) : (s.setHeapCell a v).stack = s.stack := rfl
@[simp] theorem setHeapCell_heap (a : Nat) (v : Word) : (s.setHeapCell a v).heap = Memory.write (heapBlank s.cfg) s.heap a v := rfl

/-! ### setPc -/

@[simp] theorem setPc_cfg (v : Word) : (s.setPc v).cfg = s.cfg := rfl
@[simp] theorem setPc_prog (v : Word) : (s.setPc v).prog = s.prog := rfl
@[simp] theorem setPc_regs (v : Word) : (s.setPc v).regs = s.regs := rfl
@[simp] theorem setPc_pc (v : Word) : (s.setPc v).pc = v := rfl
@[simp] theorem setPc_sp (v : Word) : (s.setPc v).sp = s.sp := rfl
@[simp] theorem setPc_hwm (v : Word) : (s.setPc v).hwm = s.hwm := rfl
@[simp] theorem setPc_z (v : Word) : (s.setPc v).z = s.z := rfl
@[simp] theorem setPc_n (v : Word) : (s.setPc v).n = s.n := rfl
@[simp] theorem setPc_j (v : Word) : (s.setPc v).j = s.j := rfl
@[simp] theorem setPc_status (v : Word) : (s.setPc v).status = s.status := rfl
@[simp] theorem setPc_stack (v : Word) : (s.setPc v).stack = s.stack := rfl
@[simp] theorem setPc_heap (v : Word) : (s.setPc v).heap = s.heap := rfl

/-! ### setSp -/

@[simp] theorem setSp_cfg (v : Word) : (s.setSp v).cfg = s.cfg := rfl
@[simp] theorem setSp_prog (v : Word) : (s.setSp v).prog = s.prog := rfl
@[simp] theorem setSp_regs (v : Word) : (s.setSp v).regs = s.regs := rfl
@[simp] theorem setSp_pc (v : Word) : (s.setSp v).pc = s.pc := rfl
@[simp] theorem setSp_sp (v : Word) : (s.setSp v).sp = v := rfl
@[simp] theorem setSp_hwm (v : Word) : (s.setSp v).hwm = s.hwm := rfl
@[simp] theorem setSp_z (v : Word) : (s.setSp v).z = s.z := rfl
@[simp] theorem setSp_n (v : Word) : (s.setSp v).n = s.n := rfl
@[simp] theorem setSp_j (v : Word) : (s.setSp v).j = s.j := rfl
@[simp] theorem setSp_status (v : Word) : (s.setSp v).status = s.status := rfl
@[simp] theorem setSp_stack (v : Word) : (s.setSp v).stack = s.stack := rfl
@[simp] theorem setSp_heap (v : Word) : (s.setSp v).heap = s.heap := rfl

/-! ### setHwm -/

@[simp] theorem setHwm_cfg (v : Word) : (s.setHwm v).cfg = s.cfg := rfl
@[simp] theorem setHwm_prog (v : Word) : (s.setHwm v).prog = s.prog := rfl
@[simp] theorem setHwm_regs (v : Word) : (s.setHwm v).regs = s.regs := rfl
@[simp] theorem setHwm_pc (v : Word) : (s.setHwm v).pc = s.pc := rfl
@[simp] theorem setHwm_sp (v : Word) : (s.setHwm v).sp = s.sp := rfl
@[simp] theorem setHwm_hwm (v : Word) : (s.setHwm v).hwm = v := rfl
@[simp] theorem setHwm_z (v : Word) : (s.setHwm v).z = s.z := rfl
@[simp] theorem setHwm_n (v : Word) : (s.setHwm v).n = s.n := rfl
@[simp] theorem setHwm_j (v : Word) : (s.setHwm v).j = s.j := rfl
@[simp] theorem setHwm_status (v : Word) : (s.setHwm v).status = s.status := rfl
@[simp] theorem setHwm_stack (v : Word) : (s.setHwm v).stack = s.stack := rfl
@[simp] theorem setHwm_heap (v : Word) : (s.setHwm v).heap = s.heap := rfl

/-! ### setFlags -/

@[simp] theorem setFlags_cfg (z n : Bool) : (s.setFlags z n).cfg = s.cfg := rfl
@[simp] theorem setFlags_prog (z n : Bool) : (s.setFlags z n).prog = s.prog := rfl
@[simp] theorem setFlags_regs (z n : Bool) : (s.setFlags z n).regs = s.regs := rfl
@[simp] theorem setFlags_pc (z n : Bool) : (s.setFlags z n).pc = s.pc := rfl
@[simp] theorem setFlags_sp (z n : Bool) : (s.setFlags z n).sp = s.sp := rfl
@[simp] theorem setFlags_hwm (z n : Bool) : (s.setFlags z n).hwm = s.hwm := rfl
@[simp] theorem setFlags_z (z n : Bool) : (s.setFlags z n).z = z := rfl
@[simp] theorem setFlags_n (z n : Bool) : (s.setFlags z n).n = n := rfl
@[simp] theorem setFlags_j (z n : Bool) : (s.setFlags z n).j = s.j := rfl
@[simp] theorem setFlags_status (z n : Bool) : (s.setFlags z n).status = s.status := rfl
@[simp] theorem setFlags_stack (z n : Bool) : (s.setFlags z n).stack = s.stack := rfl
@[simp] theorem setFlags_heap (z n : Bool) : (s.setFlags z n).heap = s.heap := rfl

/-! ### setJ -/

@[simp] theorem setJ_cfg (b : Bool) : (s.setJ b).cfg = s.cfg := rfl
@[simp] theorem setJ_prog (b : Bool) : (s.setJ b).prog = s.prog := rfl
@[simp] theorem setJ_regs (b : Bool) : (s.setJ b).regs = s.regs := rfl
@[simp] theorem setJ_pc (b : Bool) : (s.setJ b).pc = s.pc := rfl
@[simp] theorem setJ_sp (b : Bool) : (s.setJ b).sp = s.sp := rfl
@[simp] theorem setJ_hwm (b : Bool) : (s.setJ b).hwm = s.hwm := rfl
@[simp] theorem setJ_z (b : Bool) : (s.setJ b).z = s.z := rfl
@[simp] theorem setJ_n (b : Bool) : (s.setJ b).n = s.n := rfl
@[simp] theorem setJ_j (b : Bool) : (s.setJ b).j = b := rfl
@[simp] theorem setJ_status (b : Bool) : (s.setJ b).status = s.status := rfl
@[simp] theorem setJ_stack (b : Bool) : (s.setJ b).stack = s.stack := rfl
@[simp] theorem setJ_heap (b : Bool) : (s.setJ b).heap = s.heap := rfl

/-! ### setStatus -/

@[simp] theorem setStatus_cfg (t : Status) : (s.setStatus t).cfg = s.cfg := rfl
@[simp] theorem setStatus_prog (t : Status) : (s.setStatus t).prog = s.prog := rfl
@[simp] theorem setStatus_regs (t : Status) : (s.setStatus t).regs = s.regs := rfl
@[simp] theorem setStatus_pc (t : Status) : (s.setStatus t).pc = s.pc := rfl
@[simp] theorem setStatus_sp (t : Status) : (s.setStatus t).sp = s.sp := rfl
@[simp] theorem setStatus_hwm (t : Status) : (s.setStatus t).hwm = s.hwm := rfl
@[simp] theorem setStatus_z (t : Status) : (s.setStatus t).z = s.z := rfl
@[simp] theorem setStatus_n (t : Status) : (s.setStatus t).n = s.n := rfl
@[simp] theorem setStatus_j (t : Status) : (s.setStatus t).j = s.j := rfl
@[simp] theorem setStatus_status (t : Status) : (s.setStatus t).status = t := rfl
@[simp] theorem setStatus_stack (t : Status) : (s.setStatus t).stack = s.stack := rfl
@[simp] theorem setStatus_heap (t : Status) : (s.setStatus t).heap = s.heap := rfl

/-! ### raise -/

@[simp] theorem raise_cfg (c : Cause) : (s.raise c).cfg = s.cfg := rfl
@[simp] theorem raise_prog (c : Cause) : (s.raise c).prog = s.prog := rfl
@[simp] theorem raise_regs (c : Cause) : (s.raise c).regs = s.regs := rfl
@[simp] theorem raise_pc (c : Cause) : (s.raise c).pc = s.pc := rfl
@[simp] theorem raise_sp (c : Cause) : (s.raise c).sp = s.sp := rfl
@[simp] theorem raise_hwm (c : Cause) : (s.raise c).hwm = s.hwm := rfl
@[simp] theorem raise_z (c : Cause) : (s.raise c).z = s.z := rfl
@[simp] theorem raise_n (c : Cause) : (s.raise c).n = s.n := rfl
@[simp] theorem raise_j (c : Cause) : (s.raise c).j = s.j := rfl
@[simp] theorem raise_status (c : Cause) : (s.raise c).status = .faulted c := rfl
@[simp] theorem raise_stack (c : Cause) : (s.raise c).stack = s.stack := rfl
@[simp] theorem raise_heap (c : Cause) : (s.raise c).heap = s.heap := rfl

/-! ### Derived reads -/

@[simp] theorem setReg_stackCell (i : RegIndex) (v : Word) (k : Nat) : (s.setReg i v).stackCell k = s.stackCell k := rfl
@[simp] theorem setReg_heapCell (i : RegIndex) (v : Word) (k : Nat) : (s.setReg i v).heapCell k = s.heapCell k := rfl
@[simp] theorem setReg_progLen (i : RegIndex) (v : Word) : (s.setReg i v).progLen = s.progLen := rfl
@[simp] theorem setStackCell_reg (a : Nat) (v : Word) (r : RegIndex) : (s.setStackCell a v).reg r = s.reg r := rfl
@[simp] theorem setStackCell_heapCell (a : Nat) (v : Word) (k : Nat) : (s.setStackCell a v).heapCell k = s.heapCell k := rfl
@[simp] theorem setStackCell_progLen (a : Nat) (v : Word) : (s.setStackCell a v).progLen = s.progLen := rfl
@[simp] theorem setHeapCell_reg (a : Nat) (v : Word) (r : RegIndex) : (s.setHeapCell a v).reg r = s.reg r := rfl
@[simp] theorem setHeapCell_stackCell (a : Nat) (v : Word) (k : Nat) : (s.setHeapCell a v).stackCell k = s.stackCell k := rfl
@[simp] theorem setHeapCell_progLen (a : Nat) (v : Word) : (s.setHeapCell a v).progLen = s.progLen := rfl
@[simp] theorem setPc_reg (v : Word) (r : RegIndex) : (s.setPc v).reg r = s.reg r := rfl
@[simp] theorem setPc_stackCell (v : Word) (k : Nat) : (s.setPc v).stackCell k = s.stackCell k := rfl
@[simp] theorem setPc_heapCell (v : Word) (k : Nat) : (s.setPc v).heapCell k = s.heapCell k := rfl
@[simp] theorem setPc_progLen (v : Word) : (s.setPc v).progLen = s.progLen := rfl
@[simp] theorem setSp_reg (v : Word) (r : RegIndex) : (s.setSp v).reg r = s.reg r := rfl
@[simp] theorem setSp_stackCell (v : Word) (k : Nat) : (s.setSp v).stackCell k = s.stackCell k := rfl
@[simp] theorem setSp_heapCell (v : Word) (k : Nat) : (s.setSp v).heapCell k = s.heapCell k := rfl
@[simp] theorem setSp_progLen (v : Word) : (s.setSp v).progLen = s.progLen := rfl
@[simp] theorem setHwm_reg (v : Word) (r : RegIndex) : (s.setHwm v).reg r = s.reg r := rfl
@[simp] theorem setHwm_stackCell (v : Word) (k : Nat) : (s.setHwm v).stackCell k = s.stackCell k := rfl
@[simp] theorem setHwm_heapCell (v : Word) (k : Nat) : (s.setHwm v).heapCell k = s.heapCell k := rfl
@[simp] theorem setHwm_progLen (v : Word) : (s.setHwm v).progLen = s.progLen := rfl
@[simp] theorem setFlags_reg (z n : Bool) (r : RegIndex) : (s.setFlags z n).reg r = s.reg r := rfl
@[simp] theorem setFlags_stackCell (z n : Bool) (k : Nat) : (s.setFlags z n).stackCell k = s.stackCell k := rfl
@[simp] theorem setFlags_heapCell (z n : Bool) (k : Nat) : (s.setFlags z n).heapCell k = s.heapCell k := rfl
@[simp] theorem setFlags_progLen (z n : Bool) : (s.setFlags z n).progLen = s.progLen := rfl
@[simp] theorem setJ_reg (b : Bool) (r : RegIndex) : (s.setJ b).reg r = s.reg r := rfl
@[simp] theorem setJ_stackCell (b : Bool) (k : Nat) : (s.setJ b).stackCell k = s.stackCell k := rfl
@[simp] theorem setJ_heapCell (b : Bool) (k : Nat) : (s.setJ b).heapCell k = s.heapCell k := rfl
@[simp] theorem setJ_progLen (b : Bool) : (s.setJ b).progLen = s.progLen := rfl
@[simp] theorem setStatus_reg (t : Status) (r : RegIndex) : (s.setStatus t).reg r = s.reg r := rfl
@[simp] theorem setStatus_stackCell (t : Status) (k : Nat) : (s.setStatus t).stackCell k = s.stackCell k := rfl
@[simp] theorem setStatus_heapCell (t : Status) (k : Nat) : (s.setStatus t).heapCell k = s.heapCell k := rfl
@[simp] theorem setStatus_progLen (t : Status) : (s.setStatus t).progLen = s.progLen := rfl
@[simp] theorem raise_reg (c : Cause) (r : RegIndex) : (s.raise c).reg r = s.reg r := rfl
@[simp] theorem raise_stackCell (c : Cause) (k : Nat) : (s.raise c).stackCell k = s.stackCell k := rfl
@[simp] theorem raise_heapCell (c : Cause) (k : Nat) : (s.raise c).heapCell k = s.heapCell k := rfl
@[simp] theorem raise_progLen (c : Cause) : (s.raise c).progLen = s.progLen := rfl

/-- Reading back a register that was written. -/
@[simp] theorem setReg_reg_self (i : RegIndex) (v : Word) : (s.setReg i v).reg i = v := by
  simp [setReg, reg]

/-- Writing a register leaves the others alone. -/
theorem setReg_reg_ne {i r : RegIndex} (v : Word) (h : r ≠ i) : (s.setReg i v).reg r = s.reg r := by
  have : i.val ≠ r.val := fun e => h (Fin.ext e.symm)
  simp [setReg, reg, this]

/-! ### The reset state -/

@[simp] theorem resetWith_cfg (cfg : Config) (prog : List Word) : (resetWith cfg prog).cfg = cfg := rfl
@[simp] theorem resetWith_prog (cfg : Config) (prog : List Word) : (resetWith cfg prog).prog = prog := rfl
@[simp] theorem resetWith_regs (cfg : Config) (prog : List Word) : (resetWith cfg prog).regs = Vector.replicate 8 0 := rfl
@[simp] theorem resetWith_pc (cfg : Config) (prog : List Word) : (resetWith cfg prog).pc = 0 := rfl
@[simp] theorem resetWith_sp (cfg : Config) (prog : List Word) : (resetWith cfg prog).sp = 0 := rfl
@[simp] theorem resetWith_hwm (cfg : Config) (prog : List Word) : (resetWith cfg prog).hwm = 0 := rfl
@[simp] theorem resetWith_z (cfg : Config) (prog : List Word) : (resetWith cfg prog).z = false := rfl
@[simp] theorem resetWith_n (cfg : Config) (prog : List Word) : (resetWith cfg prog).n = false := rfl
@[simp] theorem resetWith_j (cfg : Config) (prog : List Word) : (resetWith cfg prog).j = false := rfl
@[simp] theorem resetWith_status (cfg : Config) (prog : List Word) : (resetWith cfg prog).status = .running := rfl
@[simp] theorem resetWith_stack (cfg : Config) (prog : List Word) : (resetWith cfg prog).stack = [] := rfl
@[simp] theorem resetWith_heap (cfg : Config) (prog : List Word) : (resetWith cfg prog).heap = [] := rfl

end Sys2Proof.Machine.State
end

