-- ==== Sys2Proof/Laws/Ops.lean ====
section
/-! SUPPORT. What the shared operations can do: resolving, reading, writing, validation, and the one
lemma `execute_eq` that says how the stages of a step decide its outcome. -/

namespace Sys2Proof.Machine

/-! ### Ending a step -/

@[simp] theorem finish_ok (s t : State) : finish s (.ok t) = .next t := rfl
@[simp] theorem finish_raise (s : State) (c : Cause) :
    finish s (.error (.raise c)) = .next (s.raise c) := rfl
@[simp] theorem finish_refuse (s : State) (r : Refusal) :
    finish s (.error (.refuse r)) = .refused r := rfl

@[simp] theorem present_some (l : Loc) : present (some l) = .ok l := rfl

/-- Everything a finished step can be. -/
theorem finish_eq_next {s t : State} {r : Except Stop State} (h : finish s r = .next t) :
    r = .ok t ∨ ∃ c, r = .error (.raise c) ∧ t = s.raise c := by
  rcases r with (c | r) | u
  · exact .inr ⟨c, rfl, by simpa using h.symm⟩
  · simp at h
  · exact .inl (by simpa using h)

/-- A bind that ends well went through its first part. -/
theorem bind_eq_ok {α β : Type} {x : Except Stop α} {f : α → Except Stop β} {b : β}
    (h : (x >>= f) = .ok b) : ∃ a, x = .ok a ∧ f a = .ok b := by
  cases x with
  | error e => exact absurd h (by simp [bind, Except.bind])
  | ok a => exact ⟨a, rfl, h⟩

@[simp] theorem ok_bind {α β : Type} (a : α) (f : α → Except Stop β) :
    ((Except.ok a : Except Stop α) >>= f) = f a := rfl
@[simp] theorem error_bind {α β : Type} (e : Stop) (f : α → Except Stop β) :
    ((Except.error e : Except Stop α) >>= f) = .error e := rfl

/-! ### Resolution -/

/-- The three locations of an operand triple, before limits. -/
def State.locateAll (s : State) (o : Operands) : Locs :=
  ⟨s.locate o.s0, s.locate o.s1, s.locate o.s2⟩

/-- A slot resolves to its location, or its location is past its limit. -/
theorem State.resolve_cases (s : State) (x : Slot) :
    (s.resolve x = .ok (s.locate x) ∧ ∀ l, s.locate x = some l → s.inLimit l = true) ∨
    (s.resolve x = .error (.raise .memoryLimit) ∧ ∃ l, s.locate x = some l ∧ s.inLimit l = false) := by
  unfold State.resolve
  cases hx : s.locate x with
  | none => simp
  | some l => cases hl : s.inLimit l <;> simp [hl]

theorem State.inLimits_eq_true {s : State} {o : Operands} :
    s.inLimits o = true ↔
      ∀ x ∈ o.toList, ∀ l, s.locate x = some l → s.inLimit l = true := by
  simp only [State.inLimits, List.all_eq_true]
  refine forall₂_congr fun x _ => ?_
  cases s.locate x <;> simp

/-- The limits depend on the parameters alone. -/
theorem State.inLimit_congr {s t : State} (h : t.cfg = s.cfg) (l : Loc) : t.inLimit l = s.inLimit l := by
  cases l <;> simp [State.inLimit, h]

/-- Stage 5 resolves every slot to its location, or raises MemoryLimit (R125). -/
theorem State.resolveAll_eq (s : State) (o : Operands) :
    s.resolveAll o = if s.inLimits o then .ok (s.locateAll o) else .error (.raise .memoryLimit) := by
  unfold State.resolveAll
  rcases s.resolve_cases o.s0 with ⟨h0, l0⟩ | ⟨h0, a, ha, hf⟩
  · rcases s.resolve_cases o.s1 with ⟨h1, l1⟩ | ⟨h1, a, ha, hf⟩
    · rcases s.resolve_cases o.s2 with ⟨h2, l2⟩ | ⟨h2, a, ha, hf⟩
      · have : s.inLimits o = true := State.inLimits_eq_true.mpr (by
          simp only [Operands.toList, List.mem_cons, List.not_mem_nil, or_false]
          rintro x (rfl | rfl | rfl)
          exacts [l0, l1, l2])
        rw [h0, h1, h2, this]; rfl
      · have : s.inLimits o = false := by
          simp only [State.inLimits, Operands.toList, List.all_cons, ha, hf]; simp
        rw [h0, h1, h2, this]; rfl
    · have : s.inLimits o = false := by
        simp only [State.inLimits, Operands.toList, List.all_cons, ha, hf]; simp
      rw [h0, h1, this]; rfl
  · have : s.inLimits o = false := by
      simp only [State.inLimits, Operands.toList, List.all_cons, ha, hf]; simp
    rw [h0, this]; rfl

/-- How stages 3 to 5 decide the outcome, in the order of R212. -/
theorem execute_eq (i : Instr) (s : State) (body : Locs → Except Stop State) :
    execute i s body =
      if s.j then .next (s.raise .badLanding)
      else if i.validate then
        if s.inLimits i.operands then finish s (body (s.locateAll i.operands))
        else .next (s.raise .memoryLimit)
      else .next (s.raise .invalidInstruction) := by
  unfold execute State.landing validation
  rw [State.resolveAll_eq]
  cases s.j <;> cases i.validate <;> cases s.inLimits i.operands <;> rfl

/-- An instruction that executes normally does what its own rule says. -/
theorem execute_of_executes {i : Instr} {s : State} (h : s.Executes i)
    (body : Locs → Except Stop State) :
    execute i s body = finish s (body (s.locateAll i.operands)) := by
  rw [execute_eq, h.notLanding, h.valid, h.inLimits]; rfl

/-- Everything an instruction that is not `entry` can do: raise a fault and change nothing else, or
execute normally and end as its own rule says. -/
theorem execute_cases {i : Instr} {s t : State} {body : Locs → Except Stop State}
    (h : execute i s body = .next t) :
    (∃ c, t = s.raise c) ∨
      (s.Executes i ∧ body (s.locateAll i.operands) = .ok t) := by
  rw [execute_eq] at h
  split at h
  · exact .inl ⟨_, by simpa using h.symm⟩
  · split at h
    · split at h
      · rcases finish_eq_next h with h | ⟨c, -, h⟩
        · exact .inr ⟨⟨by simpa using ‹¬ s.j = true›, by assumption, by assumption⟩, h⟩
        · exact .inl ⟨c, h⟩
      · exact .inl ⟨_, by simpa using h.symm⟩
    · exact .inl ⟨_, by simpa using h.symm⟩

/-! ### Presence and writability after validation -/

/-- A present slot has a location. -/
theorem State.locate_of_present (s : State) {x : Slot} (h : x.state.isPresent = true) :
    ∃ l, s.locate x = some l := by
  cases x <;> simp_all [Slot.state, SlotState.isPresent, State.locate]

/-- An absent slot has none. -/
theorem State.locate_of_absent (s : State) {x : Slot} (h : x.state.isPresent = false) :
    s.locate x = none := by
  cases x <;> simp_all [Slot.state, SlotState.isPresent, State.locate]

/-- A present slot that is not an immediate is located at a place that can be written (R89, R131). -/
theorem State.locate_writable (s : State) {x : Slot} (hp : x.state.isPresent = true)
    (hi : x.state.isImm = false) :
    ∃ l, s.locate x = some l ∧ ∀ v, l ≠ .imm v := by
  rcases x with _ | ⟨l, v⟩ | ⟨l, v⟩ | ⟨l, i⟩ <;>
    simp only [Slot.state, SlotState.isPresent, Bool.false_eq_true] at hp <;>
    cases l <;>
    simp_all [Slot.state, SlotState.isImm, State.locate, State.placeOfConst, State.placeOfReg]

/-! ### Writing -/

/-- What a write changes: the written memory or register file, and nothing else. -/
theorem State.write_cases {s t : State} {l : Loc} {v : Word} (h : s.write l v = .ok t) :
    (∃ i, l = .reg i ∧ t = s.setReg i v) ∨ (∃ a, l = .stackCell a ∧ t = s.setStackCell a v) ∨
      (∃ a, l = .heapCell a ∧ t = s.setHeapCell a v) := by
  cases l with
  | imm w => simp [State.write] at h
  | reg i => exact .inl ⟨i, rfl, by simpa [State.write] using h.symm⟩
  | stackCell a => exact .inr (.inl ⟨a, rfl, by simpa [State.write] using h.symm⟩)
  | heapCell a => exact .inr (.inr ⟨a, rfl, by simpa [State.write] using h.symm⟩)

/-- A place that is no immediate can be written. -/
theorem State.write_ok (s : State) {l : Loc} (h : ∀ v, l ≠ .imm v) (v : Word) :
    ∃ t, s.write l v = .ok t := by
  cases l with
  | imm w => exact absurd rfl (h w)
  | reg i => exact ⟨_, rfl⟩
  | stackCell a => exact ⟨_, rfl⟩
  | heapCell a => exact ⟨_, rfl⟩

/-- Every field but the register file and the two memories is left alone by a write. -/
theorem State.write_other {s t : State} {l : Loc} {v : Word} (h : s.write l v = .ok t) :
    t.cfg = s.cfg ∧ t.prog = s.prog ∧ t.pc = s.pc ∧ t.sp = s.sp ∧ t.hwm = s.hwm ∧ t.z = s.z ∧
      t.n = s.n ∧ t.j = s.j ∧ t.status = s.status := by
  rcases State.write_cases h with ⟨_, _, rfl⟩ | ⟨_, _, rfl⟩ | ⟨_, _, rfl⟩ <;> simp

/-- A write leaves every other register alone. -/
theorem State.write_reg {s t : State} {l : Loc} {v : Word} (h : s.write l v = .ok t) {r : RegIndex}
    (hr : Loc.reg r ≠ l) : t.reg r = s.reg r := by
  rcases State.write_cases h with ⟨i, rfl, rfl⟩ | ⟨_, _, rfl⟩ | ⟨_, _, rfl⟩
  · exact State.setReg_reg_ne _ v fun e => hr (by rw [e])
  · simp
  · simp

/-- A write leaves every other stack cell alone. -/
theorem State.write_stackCell {s t : State} {l : Loc} {v : Word} (h : s.write l v = .ok t) {a : Nat}
    (ha : Loc.stackCell a ≠ l) : t.stackCell a = s.stackCell a := by
  rcases State.write_cases h with ⟨i, rfl, rfl⟩ | ⟨b, rfl, rfl⟩ | ⟨_, _, rfl⟩
  · simp
  · exact Memory.read_write_ne _ v fun e => ha (by rw [e])
  · simp

/-- A write leaves every other heap cell alone. -/
theorem State.write_heapCell {s t : State} {l : Loc} {v : Word} (h : s.write l v = .ok t) {a : Nat}
    (ha : Loc.heapCell a ≠ l) : t.heapCell a = s.heapCell a := by
  rcases State.write_cases h with ⟨i, rfl, rfl⟩ | ⟨_, _, rfl⟩ | ⟨b, rfl, rfl⟩
  · simp
  · simp
  · exact Memory.read_write_ne _ v fun e => ha (by rw [e])

end Sys2Proof.Machine
end

