-- ==== Sys2Proof/Laws/Validation.lean ====
section
/-! SUPPORT. What validation gives the execute stage, one lemma per policy class: which slots have a
location, and that a destination is no immediate (40_codec.md R93, R95 to R103). -/

namespace Sys2Proof.Machine

variable {s : State} {o : Operands}

/-- ARITH: both sources are located, and the destination is a place that can be written. -/
theorem locate_of_arith
    (h : Policy.arith.accepts o.s0.state o.s1.state o.s2.state = true) :
    ∃ l0 l1, s.locate o.s0 = some l0 ∧ s.locate o.s1 = some l1 ∧
      ∀ v, (s.locate o.s2).getD l0 ≠ .imm v := by
  simp only [Policy.accepts, Bool.and_eq_true] at h
  obtain ⟨⟨h0, h1⟩, h2⟩ := h
  obtain ⟨l0, e0⟩ := s.locate_of_present h0
  obtain ⟨l1, e1⟩ := s.locate_of_present h1
  refine ⟨l0, l1, e0, e1, ?_⟩
  cases hp : o.s2.state.isPresent with
  | true =>
    obtain ⟨l, e, hl⟩ := s.locate_writable hp (by simpa [hp] using h2)
    simpa [e] using hl
  | false =>
    obtain ⟨l, e, hl⟩ := s.locate_writable h0 (by simpa [hp] using h2)
    rw [s.locate_of_absent hp]
    rw [e] at e0
    cases e0
    exact hl

/-- NOT: the source is located, and the destination is a place that can be written. -/
theorem locate_of_not
    (h : Policy.not.accepts o.s0.state o.s1.state o.s2.state = true) :
    ∃ l0, s.locate o.s0 = some l0 ∧ ∀ v, (s.locate o.s1).getD l0 ≠ .imm v := by
  simp only [Policy.accepts, Bool.and_eq_true] at h
  obtain ⟨⟨h0, -⟩, h2⟩ := h
  obtain ⟨l0, e0⟩ := s.locate_of_present h0
  refine ⟨l0, e0, ?_⟩
  cases hp : o.s1.state.isPresent with
  | true =>
    obtain ⟨l, e, hl⟩ := s.locate_writable hp (by simpa [hp] using h2)
    simpa [e] using hl
  | false =>
    obtain ⟨l, e, hl⟩ := s.locate_writable h0 (by simpa [hp] using h2)
    rw [s.locate_of_absent hp]
    rw [e] at e0
    cases e0
    exact hl

/-- CMP: both operands are located. -/
theorem locate_of_cmp
    (h : Policy.cmp.accepts o.s0.state o.s1.state o.s2.state = true) :
    ∃ l0 l1, s.locate o.s0 = some l0 ∧ s.locate o.s1 = some l1 := by
  simp only [Policy.accepts, Bool.and_eq_true] at h
  obtain ⟨l0, e0⟩ := s.locate_of_present h.1.1
  obtain ⟨l1, e1⟩ := s.locate_of_present h.1.2
  exact ⟨l0, l1, e0, e1⟩

/-- ONE_ANY: the operand is located. -/
theorem locate_of_oneAny
    (h : Policy.oneAny.accepts o.s0.state o.s1.state o.s2.state = true) :
    ∃ l0, s.locate o.s0 = some l0 := by
  simp only [Policy.accepts, Bool.and_eq_true] at h
  exact s.locate_of_present h.1.1

/-- POP: the destination is located at a place that can be written. -/
theorem locate_of_pop
    (h : Policy.pop.accepts o.s0.state o.s1.state o.s2.state = true) :
    ∃ l0, s.locate o.s0 = some l0 ∧ ∀ v, l0 ≠ .imm v := by
  simp only [Policy.accepts, SlotState.isWritable, Bool.and_eq_true, Bool.not_eq_true'] at h
  exact s.locate_writable h.1.1.1 h.1.1.2

/-- SWAP: both operands are located at places that can be written. -/
theorem locate_of_swap
    (h : Policy.swap.accepts o.s0.state o.s1.state o.s2.state = true) :
    ∃ l0 l1, s.locate o.s0 = some l0 ∧ s.locate o.s1 = some l1 ∧ (∀ v, l0 ≠ .imm v) ∧
      ∀ v, l1 ≠ .imm v := by
  simp only [Policy.accepts, SlotState.isWritable, Bool.and_eq_true, Bool.not_eq_true'] at h
  obtain ⟨l0, e0, w0⟩ := s.locate_writable h.1.1.1 h.1.1.2
  obtain ⟨l1, e1, w1⟩ := s.locate_writable h.1.2.1 h.1.2.2
  exact ⟨l0, l1, e0, e1, w0, w1⟩

/-- ALLOC: the size is located, and the destination is a place that can be written. -/
theorem locate_of_alloc
    (h : Policy.alloc.accepts o.s0.state o.s1.state o.s2.state = true) :
    ∃ l0 l1, s.locate o.s0 = some l0 ∧ s.locate o.s1 = some l1 ∧ ∀ v, l1 ≠ .imm v := by
  simp only [Policy.accepts, SlotState.isWritable, Bool.and_eq_true, Bool.not_eq_true'] at h
  obtain ⟨l0, e0⟩ := s.locate_of_present h.1.1
  obtain ⟨l1, e1, w1⟩ := s.locate_writable h.1.2.1 h.1.2.2
  exact ⟨l0, l1, e0, e1, w1⟩

/-- The program counter after an instruction: past its word and its trailing words (R14, R62). -/
theorem State.npc_eq (i : Instr) :
    s.npc i = s.pc + 1 + BitVec.ofNat 32 i.operands.nTrailing := by
  simp only [State.npc, Instr.length, BitVec.ofNat_add]
  rw [← BitVec.add_assoc]
  rfl

end Sys2Proof.Machine
end

