-- ==== Sys2Proof/Laws/Instr.lean ====
section
/-! SUPPORT. What the shared rules of the instruction families do once the operands are located, and
what a rule that ends well has done. -/

namespace Sys2Proof.Machine

variable {s t : State} {npc : Word} {locs : Locs} {l0 l1 : Loc}

/-! ### The stack -/

theorem pushWord_of_lt (h : s.sp.toNat < s.cfg.stackLimit) (v : Word) :
    pushWord s v = .ok ((s.setStackCell s.sp.toNat v).setSp (s.sp + 1)) := by
  simp [pushWord, Nat.not_le.mpr h]

theorem pushWord_of_le (h : s.cfg.stackLimit ≤ s.sp.toNat) (v : Word) :
    pushWord s v = .error (.raise .memoryLimit) := by
  simp [pushWord, h]

theorem popWord_of_ne (h : s.sp ≠ 0) :
    popWord s = .ok (s.stackCell (s.sp - 1).toNat, s.setSp (s.sp - 1)) := by
  rw [popWord, if_neg h]

theorem popWord_of_eq (h : s.sp = 0) : popWord s = .error (.raise .stackUnderflow) := by
  rw [popWord, if_pos h]

/-- The index of the top of a stack that is not empty. -/
theorem top_index (h : s.sp ≠ 0) : (s.sp - 1).toNat = s.sp.toNat - 1 := by
  have : s.sp.toNat ≠ 0 := fun e => h (BitVec.eq_of_toNat_eq (by simpa using e))
  have hlt := s.sp.isLt
  have h1 : (1 : Word).toNat = 1 := rfl
  rw [BitVec.toNat_sub, h1]
  omega

/-! ### Rules on located operands -/

theorem binaryBody_eq (f : Word → Word → Except Stop Word) (e0 : locs.l0 = some l0)
    (e1 : locs.l1 = some l1) :
    binaryBody f npc s locs =
      (f (s.read l0) (s.read l1) >>= fun r =>
        s.write (locs.l2.getD l0) r >>= fun t => .ok (t.setPc npc)) := by
  simp [binaryBody, e0, e1]

theorem notBody_eq (e0 : locs.l0 = some l0) :
    notBody npc s locs =
      (s.write (locs.l1.getD l0) (aluNot (s.read l0)) >>= fun t => .ok (t.setPc npc)) := by
  simp [notBody, e0]

theorem cmpBody_eq (e0 : locs.l0 = some l0) (e1 : locs.l1 = some l1) :
    cmpBody npc s locs =
      .ok ((s.setFlags (cmpZ (s.read l0) (s.read l1)) (cmpN (s.read l0) (s.read l1))).setPc npc) := by
  simp [cmpBody, e0, e1]

theorem jumpBody_eq (cond : Bool → Bool → Bool) (e0 : locs.l0 = some l0) :
    jumpBody cond npc s locs =
      if cond s.z s.n then .ok ((s.setPc (s.pc + s.read l0)).setJ true) else .ok (s.setPc npc) := by
  simp [jumpBody, e0]

theorem callBody_eq (e0 : locs.l0 = some l0) :
    callBody npc s locs =
      (pushWord s npc >>= fun t => .ok ((t.setPc (s.pc + s.read l0)).setJ true)) := by
  simp [callBody, e0]

theorem pushBody_eq (e0 : locs.l0 = some l0) :
    pushBody npc s locs = (pushWord s (s.read l0) >>= fun t => .ok (t.setPc npc)) := by
  simp [pushBody, e0]

theorem popBody_of_ne (e0 : locs.l0 = some l0) (h : s.sp ≠ 0) :
    popBody npc s locs =
      ((s.setSp (s.sp - 1)).write l0 (s.stackCell (s.sp - 1).toNat) >>= fun u =>
        .ok (u.setPc npc)) := by
  simp [popBody, e0, popWord_of_ne h]

theorem popBody_of_eq (e0 : locs.l0 = some l0) (h : s.sp = 0) :
    popBody npc s locs = .error (.raise .stackUnderflow) := by
  simp [popBody, e0, popWord_of_eq h]

theorem retBody_of_ne (h : s.sp ≠ 0) :
    retBody s locs = .ok ((s.setSp (s.sp - 1)).setPc (s.stackCell (s.sp - 1).toNat)) := by
  simp [retBody, popWord_of_ne h]

theorem retBody_of_eq (h : s.sp = 0) : retBody s locs = .error (.raise .stackUnderflow) := by
  simp [retBody, popWord_of_eq h]

theorem swapBody_eq (e0 : locs.l0 = some l0) (e1 : locs.l1 = some l1) :
    swapBody npc s locs =
      (s.write l0 (s.read l1) >>= fun t => t.write l1 (s.read l0) >>= fun u =>
        .ok (u.setPc npc)) := by
  simp [swapBody, e0, e1]

theorem allocBody_eq (e0 : locs.l0 = some l0) (e1 : locs.l1 = some l1) :
    allocBody npc s locs =
      if s.hwm.toNat + (s.read l0).toNat > s.cfg.heapLimit then .error (.raise .memoryLimit)
      else (s.setHwm (s.hwm + s.read l0)).write l1 s.hwm >>= fun t => .ok (t.setPc npc) := by
  simp [allocBody, e0, e1]

/-! ### A step -/

/-- Everything a step can be: a stopped core stays, a fetch that fails raises its fault, and a fetched
instruction runs. -/
theorem step_cases (h : step s = .next t) :
    (s.status ≠ .running ∧ t = s) ∨
      (s.status = .running ∧ ∃ e,
        decodeWords s.cfg (s.prog.drop s.pc.toNat) = .error e ∧ t = s.raise (decodeCause e)) ∨
      (s.status = .running ∧ ∃ i rest,
        decodeWords s.cfg (s.prog.drop s.pc.toNat) = .ok (i, rest) ∧ exec i s = .next t) := by
  unfold step at h
  split at h
  · rename_i hr
    unfold State.fetch at h
    cases hd : decodeWords s.cfg (s.prog.drop s.pc.toNat) with
    | error e => rw [hd] at h; exact .inr (.inl ⟨hr, e, rfl, by simpa using h.symm⟩)
    | ok p => rw [hd] at h; exact .inr (.inr ⟨hr, p.1, p.2, rfl, h⟩)
  · rename_i hr; exact .inl ⟨by simp [hr], by simpa using h.symm⟩
  · rename_i hr; exact .inl ⟨by simp [hr], by simpa using h.symm⟩

end Sys2Proof.Machine
end

