-- ==== Sys2Proof/Laws/Exec.lean ====
section
/-! SUPPORT. What `exec` can do, said once: every instruction but `entry` runs the shared stages with
its own rule (`exec_eq`), no rule refuses after validation (`rule_not_refused`), and a next state is
one of the effects listed in `Effect` (`exec_effect`). -/

namespace Sys2Proof.Machine

variable {s t : State}

/-- The instruction's own rule, as the arms of `exec` use it. -/
def rule (i : Instr) (s : State) : Locs → Except Stop State :=
  match i with
  | .add _ => binaryBody (fun a b => .ok (aluAdd a b)) (s.npc i) s
  | .sub _ => binaryBody (fun a b => .ok (aluSub a b)) (s.npc i) s
  | .mul _ => binaryBody (fun a b => .ok (aluMul a b)) (s.npc i) s
  | .div _ => binaryBody divOrRaise (s.npc i) s
  | .or _ => binaryBody (fun a b => .ok (aluOr a b)) (s.npc i) s
  | .and _ => binaryBody (fun a b => .ok (aluAnd a b)) (s.npc i) s
  | .xor _ => binaryBody (fun a b => .ok (aluXor a b)) (s.npc i) s
  | .shl _ => binaryBody (fun a b => .ok (aluShl a b)) (s.npc i) s
  | .shr _ => binaryBody (fun a b => .ok (aluShr a b)) (s.npc i) s
  | .not _ => notBody (s.npc i) s
  | .cmp _ => cmpBody (s.npc i) s
  | .jmp _ => jumpBody condJmp (s.npc i) s
  | .je _ => jumpBody condJe (s.npc i) s
  | .jl _ => jumpBody condJl (s.npc i) s
  | .jle _ => jumpBody condJle (s.npc i) s
  | .jne _ => jumpBody condJne (s.npc i) s
  | .jnl _ => jumpBody condJnl (s.npc i) s
  | .jnle _ => jumpBody condJnle (s.npc i) s
  | .call _ => callBody (s.npc i) s
  | .ret _ => retBody s
  | .push _ => pushBody (s.npc i) s
  | .pop _ => popBody (s.npc i) s
  | .swap _ => swapBody (s.npc i) s
  | .alloc _ => allocBody (s.npc i) s
  | .free _ => freeBody
  | .entry _ => fun _ => .ok ((s.setJ false).setPc (s.npc i))
  | .hlt _ => hltBody s
  | .exp0 _ | .exp1 _ | .exp2 _ | .exp3 _ | .exp4 _ => expansionBody

/-- Every instruction but `entry` runs the shared stages with its own rule. -/
theorem exec_eq (i : Instr) (s : State) (h : i.opcode ≠ .entry) :
    exec i s = execute i s (rule i s) := by
  cases i <;> first | rfl | exact absurd rfl h

theorem exec_entry (o : Operands) (s : State) :
    exec (.entry o) s = .next ((s.setJ false).setPc (s.npc (.entry o))) := rfl

/-! ### No rule refuses -/

theorem binaryBody_not_refused {f : Word → Word → Except Stop Word} {npc : Word} {o : Operands}
    (hf : ∀ a b r, f a b ≠ .error (.refuse r))
    (hv : Policy.arith.accepts o.s0.state o.s1.state o.s2.state = true) (r : Refusal) :
    binaryBody f npc s (s.locateAll o) ≠ .error (.refuse r) := by
  obtain ⟨l0, l1, e0, e1, hw⟩ := locate_of_arith (s := s) hv
  rw [binaryBody_eq (l0 := l0) (l1 := l1) f e0 e1]
  rcases hr : f (s.read l0) (s.read l1) with (c | r') | w
  · simp
  · exact absurd hr (hf _ _ _)
  · obtain ⟨t, ht⟩ := s.write_ok hw w
    simp [State.locateAll, ht]

theorem jumpBody_not_refused {c : Bool → Bool → Bool} {npc : Word} {o : Operands}
    (hv : Policy.oneAny.accepts o.s0.state o.s1.state o.s2.state = true) (r : Refusal) :
    jumpBody c npc s (s.locateAll o) ≠ .error (.refuse r) := by
  obtain ⟨l0, e0⟩ := locate_of_oneAny (s := s) hv
  rw [jumpBody_eq (l0 := l0) c e0]
  split <;> simp

/-- After validation no rule writes an immediate or reads an absent slot (R93, R131). -/
theorem rule_not_refused {i : Instr} (hv : i.validate = true) (r : Refusal) :
    rule i s (s.locateAll i.operands) ≠ .error (.refuse r) := by
  unfold Instr.validate at hv
  cases i <;> simp only [Instr.opcode, Opcode.policy, Instr.operands] at hv
  case div => exact binaryBody_not_refused (by intro a b r; unfold divOrRaise; split <;> simp) hv r
  case not o =>
    obtain ⟨l0, e0, hw⟩ := locate_of_not (s := s) hv
    obtain ⟨t, ht⟩ := s.write_ok hw (aluNot (s.read l0))
    simp only [rule]
    rw [notBody_eq (l0 := l0) e0]
    simp [State.locateAll, Instr.operands, ht]
  case cmp o =>
    obtain ⟨l0, l1, e0, e1⟩ := locate_of_cmp (s := s) hv
    simp only [rule]
    rw [cmpBody_eq (l0 := l0) (l1 := l1) e0 e1]
    simp
  case call o =>
    obtain ⟨l0, e0⟩ := locate_of_oneAny (s := s) hv
    simp only [rule]
    rw [callBody_eq (l0 := l0) e0]
    unfold pushWord
    split <;> simp
  case push o =>
    obtain ⟨l0, e0⟩ := locate_of_oneAny (s := s) hv
    simp only [rule]
    rw [pushBody_eq (l0 := l0) e0]
    unfold pushWord
    split <;> simp
  case ret o =>
    simp only [rule]
    by_cases h0 : s.sp = 0
    · rw [retBody_of_eq h0]; simp
    · rw [retBody_of_ne h0]; simp
  case pop o =>
    obtain ⟨l0, e0, hw⟩ := locate_of_pop (s := s) hv
    simp only [rule]
    by_cases h0 : s.sp = 0
    · rw [popBody_of_eq (l0 := l0) e0 h0]; simp
    · obtain ⟨t, ht⟩ := (s.setSp (s.sp - 1)).write_ok hw (s.stackCell (s.sp - 1).toNat)
      rw [popBody_of_ne (l0 := l0) e0 h0, ht]; simp
  case swap o =>
    obtain ⟨l0, l1, e0, e1, w0, w1⟩ := locate_of_swap (s := s) hv
    obtain ⟨t, ht⟩ := s.write_ok w0 (s.read l1)
    obtain ⟨u, hu⟩ := t.write_ok w1 (s.read l0)
    simp only [rule]
    rw [swapBody_eq (l0 := l0) (l1 := l1) e0 e1, ht, ok_bind, hu]; simp
  case alloc o =>
    obtain ⟨l0, l1, e0, e1, w1⟩ := locate_of_alloc (s := s) hv
    obtain ⟨t, ht⟩ := (s.setHwm (s.hwm + s.read l0)).write_ok w1 s.hwm
    simp only [rule]
    rw [allocBody_eq (l0 := l0) (l1 := l1) e0 e1, ht]
    split <;> simp
  all_goals
    simp only [rule, Instr.operands]
    first
      | exact binaryBody_not_refused (by intro a b r; simp) hv r
      | exact jumpBody_not_refused hv r
      | simp [freeBody, hltBody, expansionBody]

/-! ### The effects -/

/-- What an instruction can have done when it takes `s` to a next state. -/
inductive Effect (i : Instr) (s : State) : State → Prop where
  /-- A fault: nothing but `status` (R207). -/
  | raised (c : Cause) : Effect i s (s.raise c)
  /-- `entry` (R190). -/
  | landed (h : i.opcode = .entry) : Effect i s ((s.setJ false).setPc (s.npc i))
  /-- An arithmetic or bitwise result in its destination (R149, R150). -/
  | stored (h : s.Executes i) (l : Loc) (v : Word) (u : State) (hd : s.destinations i = [l])
      (hl : s.inLimit l = true) (hw : s.write l v = .ok u)
      (hop : i.opcode.policy = .arith ∨ i.opcode.policy = .not) : Effect i s (u.setPc (s.npc i))
  /-- `cmp` (R160). -/
  | compared (h : s.Executes i) (hop : i.opcode = .cmp) (a b : Word) :
      Effect i s ((s.setFlags (cmpZ a b) (cmpN a b)).setPc (s.npc i))
  /-- A taken jump (R170). -/
  | jumped (h : s.Executes i) (hop : i.opcode ∈ [.jmp, .je, .jl, .jle, .jne, .jnl, .jnle])
      (v : Word) : Effect i s ((s.setPc (s.pc + v)).setJ true)
  /-- A conditional jump not taken (R170). -/
  | notTaken (h : s.Executes i) (hop : i.opcode ∈ [.je, .jl, .jle, .jne, .jnl, .jnle]) :
      Effect i s (s.setPc (s.npc i))
  /-- `call` (R168). -/
  | called (h : s.Executes i) (hop : i.opcode = .call) (v : Word)
      (hs : s.sp.toNat < s.cfg.stackLimit) :
      Effect i s ((((s.setStackCell s.sp.toNat (s.npc i)).setSp (s.sp + 1)).setPc
        (s.pc + v)).setJ true)
  /-- `ret` (R169). -/
  | returned (h : s.Executes i) (hop : i.opcode = .ret) (hs : s.sp ≠ 0) :
      Effect i s ((s.setSp (s.sp - 1)).setPc (s.stackCell (s.sp - 1).toNat))
  /-- `push` (R180). -/
  | pushed (h : s.Executes i) (hop : i.opcode = .push) (v : Word)
      (hs : s.sp.toNat < s.cfg.stackLimit) :
      Effect i s (((s.setStackCell s.sp.toNat v).setSp (s.sp + 1)).setPc (s.npc i))
  /-- `pop` (R181). -/
  | popped (h : s.Executes i) (hop : i.opcode = .pop) (l : Loc) (u : State) (hs : s.sp ≠ 0)
      (hd : s.destinations i = [l]) (hl : s.inLimit l = true)
      (hw : (s.setSp (s.sp - 1)).write l (s.stackCell (s.sp - 1).toNat) = .ok u) :
      Effect i s (u.setPc (s.npc i))
  /-- `swap` (R182). -/
  | swapped (h : s.Executes i) (hop : i.opcode = .swap) (l0 l1 : Loc) (u v : State)
      (hd : s.destinations i = [l0, l1]) (hl0 : s.inLimit l0 = true) (hl1 : s.inLimit l1 = true)
      (hw0 : s.write l0 (s.read l1) = .ok u) (hw1 : u.write l1 (s.read l0) = .ok v) :
      Effect i s (v.setPc (s.npc i))
  /-- `alloc` (R184). -/
  | allocated (h : s.Executes i) (hop : i.opcode = .alloc) (l0 l1 : Loc) (u : State)
      (hsize : s.locate i.operands.s0 = some l0)
      (hlim : s.hwm.toNat + (s.read l0).toNat ≤ s.cfg.heapLimit)
      (hd : s.destinations i = [l1]) (hl : s.inLimit l1 = true)
      (hw : (s.setHwm (s.hwm + s.read l0)).write l1 s.hwm = .ok u) :
      Effect i s (u.setPc (s.npc i))
  /-- `hlt` (R191). -/
  | halted (h : s.Executes i) (hop : i.opcode = .hlt) : Effect i s (s.setStatus .halted)

/-- A located slot of an instruction that executes normally is below its limit. -/
theorem State.Executes.inLimit {i : Instr} (h : s.Executes i) {x : Slot}
    (hx : x ∈ i.operands.toList) {l : Loc} (hl : s.locate x = some l) : s.inLimit l = true :=
  State.inLimits_eq_true.mp h.inLimits x hx l hl

theorem binaryBody_ok {f : Word → Word → Except Stop Word} {o : Operands} {npc : Word}
    (hv : Policy.arith.accepts o.s0.state o.s1.state o.s2.state = true)
    (hlim : ∀ x ∈ o.toList, ∀ l, s.locate x = some l → s.inLimit l = true)
    (h : binaryBody f npc s (s.locateAll o) = .ok t) :
    ∃ l v u, ((s.locate o.s2).or (s.locate o.s0)).toList = [l] ∧ s.inLimit l = true ∧
      s.write l v = .ok u ∧ t = u.setPc npc := by
  obtain ⟨l0, l1, e0, e1, -⟩ := locate_of_arith (s := s) hv
  rw [binaryBody_eq (l0 := l0) (l1 := l1) f e0 e1] at h
  obtain ⟨w, -, h⟩ := bind_eq_ok h
  obtain ⟨u, hu, h⟩ := bind_eq_ok h
  refine ⟨(s.locate o.s2).getD l0, w, u, ?_, ?_, hu, by simpa using h.symm⟩
  · rw [e0]; cases s.locate o.s2 <;> rfl
  · cases e2 : s.locate o.s2 with
    | none => exact hlim o.s0 (by simp [Operands.toList]) l0 e0
    | some l => exact hlim o.s2 (by simp [Operands.toList]) l e2

theorem jumpBody_ok {c : Bool → Bool → Bool} {o : Operands} {npc : Word}
    (hv : Policy.oneAny.accepts o.s0.state o.s1.state o.s2.state = true)
    (h : jumpBody c npc s (s.locateAll o) = .ok t) :
    ∃ l0, s.locate o.s0 = some l0 ∧
      ((c s.z s.n = true ∧ t = (s.setPc (s.pc + s.read l0)).setJ true) ∨
        (c s.z s.n = false ∧ t = s.setPc npc)) := by
  obtain ⟨l0, e0⟩ := locate_of_oneAny (s := s) hv
  rw [jumpBody_eq (l0 := l0) c e0] at h
  refine ⟨l0, e0, ?_⟩
  split at h
  · exact .inl ⟨by assumption, by simpa using h.symm⟩
  · rename_i hc; exact .inr ⟨by simpa using hc, by simpa using h.symm⟩

/-- A rule that ends well has had one of the effects. -/
theorem rule_effect {i : Instr} (he : s.Executes i) (hn : i.opcode ≠ .entry)
    (h : rule i s (s.locateAll i.operands) = .ok t) : Effect i s t := by
  have hv := he.valid
  unfold Instr.validate at hv
  have hlim := State.inLimits_eq_true.mp he.inLimits
  cases i <;> simp only [Instr.opcode, Opcode.policy, Instr.operands] at hv hlim hn
  case not o =>
    obtain ⟨l0, e0, -⟩ := locate_of_not (s := s) hv
    simp only [rule] at h
    rw [notBody_eq (l0 := l0) e0] at h
    obtain ⟨u, hu, h⟩ := bind_eq_ok h
    cases h
    refine .stored he ((s.locate o.s1).getD l0) _ u ?_ ?_ hu (.inr rfl)
    · simp only [State.destinations]; rw [e0]; cases s.locate o.s1 <;> rfl
    · cases e1 : s.locate o.s1 with
      | none => exact hlim o.s0 (by simp [Operands.toList]) l0 e0
      | some l => exact hlim o.s1 (by simp [Operands.toList]) l e1
  case cmp o =>
    obtain ⟨l0, l1, e0, e1⟩ := locate_of_cmp (s := s) hv
    simp only [rule] at h
    rw [cmpBody_eq (l0 := l0) (l1 := l1) e0 e1] at h
    cases h
    exact .compared he rfl _ _
  case call o =>
    obtain ⟨l0, e0⟩ := locate_of_oneAny (s := s) hv
    simp only [rule] at h
    rw [callBody_eq (l0 := l0) e0] at h
    obtain ⟨u, hu, h⟩ := bind_eq_ok h
    cases h
    by_cases hs : s.sp.toNat < s.cfg.stackLimit
    · rw [pushWord_of_lt hs] at hu
      cases hu
      exact .called he rfl _ hs
    · rw [pushWord_of_le (by omega)] at hu
      cases hu
  case ret o =>
    simp only [rule] at h
    by_cases h0 : s.sp = 0
    · rw [retBody_of_eq h0] at h; cases h
    · rw [retBody_of_ne h0] at h
      cases h
      exact .returned he rfl h0
  case push o =>
    obtain ⟨l0, e0⟩ := locate_of_oneAny (s := s) hv
    simp only [rule] at h
    rw [pushBody_eq (l0 := l0) e0] at h
    obtain ⟨u, hu, h⟩ := bind_eq_ok h
    cases h
    by_cases hs : s.sp.toNat < s.cfg.stackLimit
    · rw [pushWord_of_lt hs] at hu
      cases hu
      exact .pushed he rfl _ hs
    · rw [pushWord_of_le (by omega)] at hu
      cases hu
  case pop o =>
    obtain ⟨l0, e0, -⟩ := locate_of_pop (s := s) hv
    simp only [rule] at h
    by_cases h0 : s.sp = 0
    · rw [popBody_of_eq (l0 := l0) e0 h0] at h; cases h
    · rw [popBody_of_ne (l0 := l0) e0 h0] at h
      obtain ⟨u, hu, h⟩ := bind_eq_ok h
      cases h
      exact .popped he rfl l0 u h0 (by simp [State.destinations, e0])
        (hlim o.s0 (by simp [Operands.toList]) l0 e0) hu
  case swap o =>
    obtain ⟨l0, l1, e0, e1, -, -⟩ := locate_of_swap (s := s) hv
    simp only [rule] at h
    rw [swapBody_eq (l0 := l0) (l1 := l1) e0 e1] at h
    obtain ⟨u, hu, h⟩ := bind_eq_ok h
    obtain ⟨v, hv', h⟩ := bind_eq_ok h
    cases h
    exact .swapped he rfl l0 l1 u v (by simp [State.destinations, e0, e1])
      (hlim o.s0 (by simp [Operands.toList]) l0 e0) (hlim o.s1 (by simp [Operands.toList]) l1 e1)
      hu hv'
  case alloc o =>
    obtain ⟨l0, l1, e0, e1, -⟩ := locate_of_alloc (s := s) hv
    simp only [rule] at h
    rw [allocBody_eq (l0 := l0) (l1 := l1) e0 e1] at h
    split at h
    · cases h
    · obtain ⟨u, hu, h⟩ := bind_eq_ok h
      cases h
      exact .allocated he rfl l0 l1 u e0 (by omega) (by simp [State.destinations, e1])
        (hlim o.s1 (by simp [Operands.toList]) l1 e1) hu
  case hlt o =>
    simp only [rule, hltBody] at h
    cases h
    exact .halted he rfl
  case jmp o =>
    obtain ⟨l0, -, ⟨-, rfl⟩ | ⟨hc, -⟩⟩ := jumpBody_ok hv h
    · exact .jumped he (by simp [Instr.opcode]) _
    · cases hc
  case entry => exact absurd rfl hn
  all_goals
    simp only [rule, Instr.operands] at h
    first
      | (obtain ⟨l, v, u, hd, hl, hw, rfl⟩ := binaryBody_ok hv hlim h
         exact .stored he l v u hd hl hw (.inl rfl))
      | (obtain ⟨l0, -, ⟨-, rfl⟩ | ⟨-, rfl⟩⟩ := jumpBody_ok hv h
         · exact .jumped he (by simp [Instr.opcode]) _
         · exact .notTaken he (by simp [Instr.opcode]))
      | (simp only [freeBody, expansionBody] at h; cases h)

/-- A next state of `exec` is one of the effects. -/
theorem exec_effect {i : Instr} (h : exec i s = .next t) : Effect i s t := by
  by_cases hn : i.opcode = .entry
  · cases i <;> simp only [Instr.opcode, reduceCtorEq] at hn
    cases h
    exact .landed rfl
  · rw [exec_eq i s hn] at h
    rcases execute_cases h with ⟨c, rfl⟩ | ⟨he, h⟩
    · exact .raised c
    · exact rule_effect he hn h

/-! ### What the effects have in common -/

/-- No effect touches the program or the parameters. -/
theorem Effect.frozen {i : Instr} (h : Effect i s t) : t.prog = s.prog ∧ t.cfg = s.cfg := by
  cases h with
  | stored h l v u hd hl hw hop => exact ⟨(State.write_other hw).2.1, (State.write_other hw).1⟩
  | popped h hop l u hs hd hl hw => exact ⟨(State.write_other hw).2.1, (State.write_other hw).1⟩
  | swapped h hop l0 l1 u v hd hl0 hl1 hw0 hw1 =>
    have h0 := State.write_other hw0
    have h1 := State.write_other hw1
    exact ⟨h1.2.1.trans h0.2.1, h1.1.trans h0.1⟩
  | allocated h hop l0 l1 u hsize hlim hd hl hw =>
    exact ⟨(State.write_other hw).2.1, (State.write_other hw).1⟩
  | _ => simp

/-- An effect is a fault, keeps `status`, or is `hlt`'s. -/
theorem Effect.status_cases {i : Instr} (h : Effect i s t) :
    (∃ c, t = s.raise c) ∨ t.status = s.status ∨
      (i.opcode = .hlt ∧ s.Executes i ∧ t = s.setStatus .halted) := by
  cases h with
  | raised c => exact .inl ⟨c, rfl⟩
  | stored h l v u hd hl hw hop => exact .inr (.inl (State.write_other hw).2.2.2.2.2.2.2.2)
  | popped h hop l u hs hd hl hw => exact .inr (.inl (State.write_other hw).2.2.2.2.2.2.2.2)
  | swapped h hop l0 l1 u v hd hl0 hl1 hw0 hw1 =>
    exact .inr (.inl ((State.write_other hw1).2.2.2.2.2.2.2.2.trans
      (State.write_other hw0).2.2.2.2.2.2.2.2))
  | allocated h hop l0 l1 u hsize hlim hd hl hw =>
    exact .inr (.inl (State.write_other hw).2.2.2.2.2.2.2.2)
  | halted h hop => exact .inr (.inr ⟨hop, h, rfl⟩)
  | _ => exact .inr (.inl rfl)

/-! ### Which faults a rule raises -/

theorem present_not_raise {x : Option Loc} {c : Cause} : present x ≠ .error (.raise c) := by
  cases x <;> simp [present]

theorem State.write_not_raise {l : Loc} {v : Word} {c : Cause} :
    s.write l v ≠ .error (.raise c) := by
  cases l <;> simp [State.write]

/-- A bind that raises does so in its first or in its second part. -/
theorem bind_eq_raise {α β : Type} {x : Except Stop α} {f : α → Except Stop β} {c : Cause}
    (h : (x >>= f) = .error (.raise c)) :
    x = .error (.raise c) ∨ ∃ a, x = .ok a ∧ f a = .error (.raise c) := by
  cases x with
  | error e => exact .inl (by simpa using h)
  | ok a => exact .inr ⟨a, rfl, h⟩

theorem binaryBody_raise {f : Word → Word → Except Stop Word} {npc : Word} {locs : Locs} {c : Cause}
    (h : binaryBody f npc s locs = .error (.raise c)) : ∃ a b, f a b = .error (.raise c) := by
  unfold binaryBody at h
  rcases bind_eq_raise h with h | ⟨l0, -, h⟩
  · exact absurd h present_not_raise
  rcases bind_eq_raise h with h | ⟨l1, -, h⟩
  · exact absurd h present_not_raise
  rcases bind_eq_raise h with h | ⟨r, -, h⟩
  · exact ⟨_, _, h⟩
  rcases bind_eq_raise h with h | ⟨t, -, h⟩
  · exact absurd h State.write_not_raise
  · cases h

theorem jumpBody_not_raise {k : Bool → Bool → Bool} {npc : Word} {locs : Locs} {c : Cause} :
    jumpBody k npc s locs ≠ .error (.raise c) := by
  intro h
  unfold jumpBody at h
  rcases bind_eq_raise h with h | ⟨l0, -, h⟩
  · exact present_not_raise h
  · split at h <;> cases h

theorem pushWord_raise {v : Word} {c : Cause} (h : pushWord s v = .error (.raise c)) :
    c = .memoryLimit := by
  unfold pushWord at h
  split at h <;> cases h
  rfl

theorem popWord_raise {c : Cause} (h : popWord s = .error (.raise c)) : c = .stackUnderflow := by
  unfold popWord at h
  split at h <;> cases h
  rfl

/-- The faults that stage 6 can raise: none of those of the stages before it but MemoryLimit, and
InvalidInstruction for an expansion opcode (R212). -/
theorem rule_raise {i : Instr} {locs : Locs} {c : Cause}
    (h : rule i s locs = .error (.raise c)) :
    c ∈ [.divideByZero, .memoryLimit, .stackUnderflow, .unimplemented, .invalidInstruction] := by
  cases i <;> simp only [rule] at h
  case div =>
    obtain ⟨a, b, h⟩ := binaryBody_raise h
    unfold divOrRaise at h
    split at h <;> cases h
    simp
  case not =>
    unfold notBody at h
    rcases bind_eq_raise h with h | ⟨l0, -, h⟩
    · exact absurd h present_not_raise
    rcases bind_eq_raise h with h | ⟨t, -, h⟩
    · exact absurd h State.write_not_raise
    · cases h
  case cmp =>
    unfold cmpBody at h
    rcases bind_eq_raise h with h | ⟨l0, -, h⟩
    · exact absurd h present_not_raise
    rcases bind_eq_raise h with h | ⟨l1, -, h⟩
    · exact absurd h present_not_raise
    · cases h
  case call =>
    unfold callBody at h
    rcases bind_eq_raise h with h | ⟨l0, -, h⟩
    · exact absurd h present_not_raise
    rcases bind_eq_raise h with h | ⟨t, -, h⟩
    · simp [pushWord_raise h]
    · cases h
  case ret =>
    unfold retBody at h
    rcases bind_eq_raise h with h | ⟨p, -, h⟩
    · simp [popWord_raise h]
    · cases h
  case push =>
    unfold pushBody at h
    rcases bind_eq_raise h with h | ⟨l0, -, h⟩
    · exact absurd h present_not_raise
    rcases bind_eq_raise h with h | ⟨t, -, h⟩
    · simp [pushWord_raise h]
    · cases h
  case pop =>
    unfold popBody at h
    rcases bind_eq_raise h with h | ⟨l0, -, h⟩
    · exact absurd h present_not_raise
    rcases bind_eq_raise h with h | ⟨p, -, h⟩
    · simp [popWord_raise h]
    rcases bind_eq_raise h with h | ⟨t, -, h⟩
    · exact absurd h State.write_not_raise
    · cases h
  case swap =>
    unfold swapBody at h
    rcases bind_eq_raise h with h | ⟨l0, -, h⟩
    · exact absurd h present_not_raise
    rcases bind_eq_raise h with h | ⟨l1, -, h⟩
    · exact absurd h present_not_raise
    rcases bind_eq_raise h with h | ⟨t, -, h⟩
    · exact absurd h State.write_not_raise
    rcases bind_eq_raise h with h | ⟨t, -, h⟩
    · exact absurd h State.write_not_raise
    · cases h
  case alloc =>
    unfold allocBody at h
    rcases bind_eq_raise h with h | ⟨l0, -, h⟩
    · exact absurd h present_not_raise
    rcases bind_eq_raise h with h | ⟨l1, -, h⟩
    · exact absurd h present_not_raise
    simp only at h
    split at h
    · cases h; simp
    · rcases bind_eq_raise h with h | ⟨t, -, h⟩
      · exact absurd h State.write_not_raise
      · cases h
  all_goals
    first
      | (simp only [freeBody, expansionBody] at h; cases h; simp)
      | (simp only [hltBody, reduceCtorEq] at h)
      | (cases h)
      | exact absurd h jumpBody_not_raise
      | (obtain ⟨a, b, h⟩ := binaryBody_raise h; cases h)

/-- A rule that ends well leaves `status` alone or halts. -/
theorem rule_status {i : Instr} {locs : Locs} (h : rule i s locs = .ok t) :
    t.status = s.status ∨ t.status = .halted := by
  have hpush : ∀ {u : State} {v : Word}, pushWord s v = .ok u → u.status = s.status := by
    intro u v h
    unfold pushWord at h
    split at h <;> cases h
    rfl
  have hpop : ∀ {p : Word × State}, popWord s = .ok p → p.2.status = s.status := by
    intro p h
    unfold popWord at h
    split at h <;> cases h
    rfl
  cases i <;> simp only [rule] at h
  case not =>
    unfold notBody at h
    obtain ⟨l0, -, h⟩ := bind_eq_ok h
    obtain ⟨u, hw, h⟩ := bind_eq_ok h
    cases h
    exact .inl (State.write_other hw).2.2.2.2.2.2.2.2
  case cmp =>
    unfold cmpBody at h
    obtain ⟨l0, -, h⟩ := bind_eq_ok h
    obtain ⟨l1, -, h⟩ := bind_eq_ok h
    cases h
    exact .inl rfl
  case call =>
    unfold callBody at h
    obtain ⟨l0, -, h⟩ := bind_eq_ok h
    obtain ⟨u, hu, h⟩ := bind_eq_ok h
    cases h
    have := hpush hu
    exact .inl this
  case push =>
    unfold pushBody at h
    obtain ⟨l0, -, h⟩ := bind_eq_ok h
    obtain ⟨u, hu, h⟩ := bind_eq_ok h
    cases h
    have := hpush hu
    exact .inl this
  case ret =>
    unfold retBody at h
    obtain ⟨p, hp, h⟩ := bind_eq_ok h
    cases h
    exact .inl (hpop hp)
  case pop =>
    unfold popBody at h
    obtain ⟨l0, -, h⟩ := bind_eq_ok h
    obtain ⟨p, hp, h⟩ := bind_eq_ok h
    obtain ⟨u, hw, h⟩ := bind_eq_ok h
    cases h
    exact .inl ((State.write_other hw).2.2.2.2.2.2.2.2.trans (hpop hp))
  case swap =>
    unfold swapBody at h
    obtain ⟨l0, -, h⟩ := bind_eq_ok h
    obtain ⟨l1, -, h⟩ := bind_eq_ok h
    obtain ⟨u, hu, h⟩ := bind_eq_ok h
    obtain ⟨v, hv, h⟩ := bind_eq_ok h
    cases h
    exact .inl ((State.write_other hv).2.2.2.2.2.2.2.2.trans
      (State.write_other hu).2.2.2.2.2.2.2.2)
  case alloc =>
    unfold allocBody at h
    obtain ⟨l0, -, h⟩ := bind_eq_ok h
    obtain ⟨l1, -, h⟩ := bind_eq_ok h
    simp only at h
    split at h
    · cases h
    · obtain ⟨u, hu, h⟩ := bind_eq_ok h
      cases h
      exact .inl (State.write_other hu).2.2.2.2.2.2.2.2
  case entry => cases h; exact .inl rfl
  case hlt => simp only [hltBody] at h; cases h; exact .inr rfl
  case free => cases h
  case exp0 => cases h
  case exp1 => cases h
  case exp2 => cases h
  case exp3 => cases h
  case exp4 => cases h
  all_goals
    first
      | (unfold jumpBody at h
         obtain ⟨l0, -, h⟩ := bind_eq_ok h
         split at h <;> cases h <;> exact .inl rfl)
      | (unfold binaryBody at h
         obtain ⟨l0, -, h⟩ := bind_eq_ok h
         obtain ⟨l1, -, h⟩ := bind_eq_ok h
         obtain ⟨r, -, h⟩ := bind_eq_ok h
         obtain ⟨u, hu, h⟩ := bind_eq_ok h
         cases h
         exact .inl (State.write_other hu).2.2.2.2.2.2.2.2)

/-- Only the landing check raises BadLanding, so it is raised with `J = 1` (R204). -/
theorem exec_badLanding {i : Instr} (hr : s.status = .running) (h : exec i s = .next t)
    (ht : t.status = .faulted .badLanding) : s.j = true := by
  by_cases hn : i.opcode = .entry
  · cases i <;> simp only [Instr.opcode, reduceCtorEq] at hn
    cases h
    simp [hr] at ht
  · rw [exec_eq i s hn, execute_eq] at h
    by_contra hj
    rw [if_neg hj] at h
    split at h
    · split at h
      · rcases hb : rule i s (s.locateAll i.operands) with (c | r) | u <;> rw [hb] at h
        · have := rule_raise hb
          cases h
          cases ht
          simp at this
        · cases h
        · cases h
          rcases rule_status hb with hu | hu <;> rw [ht] at hu <;> simp [hr] at hu
      · cases h; cases ht
    · cases h; cases ht

end Sys2Proof.Machine
end

