-- ==== Sys2Proof/Laws/Blind.lean ====
section
/-! SUPPORT. Independence, said once: a change of the state that the shared operations neither see nor
undo commutes with every instruction. -/

namespace Sys2Proof.Machine

/-- A change of the state that reading, writing and the limits do not see, and that commutes with every
named update but `setHwm` and `setFlags`. -/
structure Blind (f : State → State) : Prop where
  pc : ∀ s, (f s).pc = s.pc
  sp : ∀ s, (f s).sp = s.sp
  j : ∀ s, (f s).j = s.j
  reg : ∀ s i, (f s).reg i = s.reg i
  stackCell : ∀ s a, (f s).stackCell a = s.stackCell a
  heapCell : ∀ s a, (f s).heapCell a = s.heapCell a
  stackLimit : ∀ s, (f s).cfg.stackLimit = s.cfg.stackLimit
  heapLimit : ∀ s, (f s).cfg.heapLimit = s.cfg.heapLimit
  setReg : ∀ s i v, (f s).setReg i v = f (s.setReg i v)
  setStackCell : ∀ s a v, (f s).setStackCell a v = f (s.setStackCell a v)
  setHeapCell : ∀ s a v, (f s).setHeapCell a v = f (s.setHeapCell a v)
  setPc : ∀ s v, (f s).setPc v = f (s.setPc v)
  setSp : ∀ s v, (f s).setSp v = f (s.setSp v)
  setJ : ∀ s b, (f s).setJ b = f (s.setJ b)
  setStatus : ∀ s t, (f s).setStatus t = f (s.setStatus t)

namespace Blind

variable {f : State → State} {s : State}

theorem locate (h : Blind f) (x : Slot) : (f s).locate x = s.locate x := by
  rcases x with _ | ⟨l, v⟩ | ⟨l, v⟩ | ⟨l, i⟩ <;> first
    | rfl
    | (cases l <;> simp [State.locate, State.placeOfConst, State.placeOfReg, h.sp, h.reg])

theorem inLimit (h : Blind f) (l : Loc) : (f s).inLimit l = s.inLimit l := by
  cases l <;> simp [State.inLimit, h.stackLimit, h.heapLimit]

theorem inLimits (h : Blind f) (o : Operands) : (f s).inLimits o = s.inLimits o := by
  simp only [State.inLimits, h.locate, h.inLimit]

theorem locateAll (h : Blind f) (o : Operands) : (f s).locateAll o = s.locateAll o := by
  simp only [State.locateAll, h.locate]

theorem read (h : Blind f) (l : Loc) : (f s).read l = s.read l := by
  cases l <;> simp [State.read, h.reg, h.stackCell, h.heapCell]

theorem write (h : Blind f) (l : Loc) (v : Word) : (f s).write l v = (s.write l v).map f := by
  cases l <;> simp [State.write, Except.map, h.setReg, h.setStackCell, h.setHeapCell]

theorem raise (h : Blind f) (c : Cause) : (f s).raise c = f (s.raise c) := h.setStatus s _

theorem npc (h : Blind f) (i : Instr) : (f s).npc i = s.npc i := by simp only [State.npc, h.pc]

theorem bind_map {α β γ : Type} (x : Except Stop α) (g : α → β) (k : β → Except Stop γ) :
    (x.map g >>= k) = x >>= fun a => k (g a) := by cases x <;> rfl

theorem map_bind {α β γ : Type} (x : Except Stop α) (k : α → Except Stop β) (g : β → γ) :
    (x >>= k).map g = x >>= fun a => (k a).map g := by cases x <;> rfl

theorem binaryBody (h : Blind f) (g : Word → Word → Except Stop Word) (npc : Word) (locs : Locs) :
    Machine.binaryBody g npc (f s) locs = (Machine.binaryBody g npc s locs).map f := by
  simp only [Machine.binaryBody, map_bind, h.read, h.write, bind_map]
  simp only [h.setPc, Except.map]

theorem pushWord (h : Blind f) (v : Word) :
    Machine.pushWord (f s) v = (Machine.pushWord s v).map f := by
  simp only [Machine.pushWord, h.sp, h.stackLimit, h.setStackCell, h.setSp]
  split <;> rfl

theorem popWord (h : Blind f) :
    Machine.popWord (f s) = (Machine.popWord s).map fun p => (p.1, f p.2) := by
  simp only [Machine.popWord, h.sp, h.stackCell, h.setSp]
  split <;> rfl

/-- Every rule commutes with a blind change, but for the watermark in `alloc`, the flags of `cmp` and
those that a conditional jump reads. -/
theorem rule (h : Blind f) {i : Instr} (locs : Locs)
    (hw : i.opcode ≠ .alloc ∨ (∀ s, (f s).hwm = s.hwm) ∧ ∀ s v, (f s).setHwm v = f (s.setHwm v))
    (hc : i.opcode ≠ .cmp ∨ ∀ s z n, (f s).setFlags z n = f (s.setFlags z n))
    (hj : i.opcode ∉ [.je, .jl, .jle, .jne, .jnl, .jnle] ∨
      (∀ s, (f s).z = s.z) ∧ ∀ s, (f s).n = s.n) :
    Machine.rule i (f s) locs = (Machine.rule i s locs).map f := by
  cases i <;> simp only [Machine.rule, h.npc]
  case not =>
    simp only [notBody, map_bind, h.read, h.write, bind_map]
    simp only [h.setPc, Except.map]
  case cmp =>
    have hc := hc.resolve_left (by simp [Instr.opcode])
    simp only [cmpBody, map_bind, h.read]
    simp only [hc, h.setPc, Except.map]
  case jmp =>
    simp only [jumpBody, map_bind, h.read, h.pc, h.setPc, h.setJ, condJmp, if_true]
    rfl
  case call =>
    simp only [callBody, map_bind, h.read, h.pc, h.pushWord, bind_map]
    simp only [h.setPc, h.setJ, Except.map]
  case ret =>
    simp only [retBody, map_bind, h.popWord, bind_map]
    simp only [h.setPc, Except.map]
  case push =>
    simp only [pushBody, map_bind, h.read, h.pushWord, bind_map]
    simp only [h.setPc, Except.map]
  case pop =>
    simp only [popBody, map_bind, h.popWord, bind_map, h.write]
    simp only [h.setPc, Except.map]
  case swap =>
    simp only [swapBody, map_bind, h.read, h.write, bind_map]
    simp only [h.setPc, Except.map]
  case alloc =>
    have hw := hw.resolve_left (by simp [Instr.opcode])
    simp only [allocBody, map_bind, h.read, h.heapLimit, hw.1, hw.2, h.write, bind_map]
    congr 1
    funext l0
    congr 1
    funext l1
    split
    · rfl
    · rw [map_bind]
      simp only [h.setPc, Except.map]
  case free => rfl
  case entry => simp only [h.setJ, h.setPc]; rfl
  case hlt => simp only [hltBody, h.setStatus]; rfl
  case exp0 => rfl
  case exp1 => rfl
  case exp2 => rfl
  case exp3 => rfl
  case exp4 => rfl
  all_goals
    first
      | exact h.binaryBody _ _ _
      | (have hj := hj.resolve_left (by simp [Instr.opcode])
         simp only [jumpBody, map_bind, h.read, h.pc, h.setPc, h.setJ, hj.1, hj.2]
         congr 1
         funext l0
         split <;> rfl)

/-- A finished step commutes with a blind change. -/
theorem finish (h : Blind f) {r : Except Stop State} {t : State} (hr : Machine.finish s r = .next t) :
    Machine.finish (f s) (r.map f) = .next (f t) := by
  rcases r with (c | r) | u
  · cases hr; exact congrArg Host.Outcome.next (h.raise c)
  · cases hr
  · cases hr; rfl

/-- Every instruction commutes with a blind change, under the conditions of `Blind.rule`. -/
theorem exec (h : Blind f) {i : Instr} {t : State}
    (hw : i.opcode ≠ .alloc ∨ (∀ s, (f s).hwm = s.hwm) ∧ ∀ s v, (f s).setHwm v = f (s.setHwm v))
    (hc : i.opcode ≠ .cmp ∨ ∀ s z n, (f s).setFlags z n = f (s.setFlags z n))
    (hj : i.opcode ∉ [.je, .jl, .jle, .jne, .jnl, .jnle] ∨
      (∀ s, (f s).z = s.z) ∧ ∀ s, (f s).n = s.n)
    (he : Machine.exec i s = .next t) : Machine.exec i (f s) = .next (f t) := by
  by_cases hn : i.opcode = .entry
  · cases i <;> simp only [Instr.opcode, reduceCtorEq] at hn
    cases he
    rw [exec_entry, h.npc, h.setJ, h.setPc]
  · rw [exec_eq i _ hn, execute_eq] at he ⊢
    rw [h.j, h.inLimits, h.locateAll, h.rule _ hw hc hj]
    by_cases hj' : s.j = true
    · rw [if_pos hj'] at he ⊢
      cases he
      rw [h.raise]
    rw [if_neg hj'] at he ⊢
    by_cases hv : i.validate = true
    · rw [if_pos hv] at he ⊢
      by_cases hl : s.inLimits i.operands = true
      · rw [if_pos hl] at he ⊢
        exact h.finish he
      · rw [if_neg hl] at he ⊢
        cases he
        rw [h.raise]
    · rw [if_neg hv] at he ⊢
      cases he
      rw [h.raise]

end Blind

end Sys2Proof.Machine
end

