-- ==== Sys2Proof/Laws/Codec.lean ====
section
/-! SUPPORT. What the pieces of the codec do: the maps and their inverses, bit fields of a packed number,
sign extension, the payload layout, and filling large immediates. -/

namespace Sys2Proof

/-! ### The maps -/

/-- Every opcode is in a map that R6 allows. -/
theorem Config.OpcodeMapOk.mem {c : Config} (h : c.OpcodeMapOk) (op : Opcode) :
    op ∈ c.opcodeMap := h.2.2 op (by cases op <;> decide)

/-- Every descriptor state is in a map that R6 allows. -/
theorem Config.DigitMapOk.mem {c : Config} (h : c.DigitMapOk) (t : SlotState) : t ∈ c.digitMap :=
  h.2.2 t (by rcases t with _ | ⟨k, l⟩ <;> first | decide | (cases k <;> cases l <;> decide))

theorem Config.OpcodeMapOk.number_lt {c : Config} (h : c.OpcodeMapOk) (op : Opcode) :
    c.opcodeNumber op < 32 := h.1 ▸ List.idxOf_lt_length_of_mem (h.mem op)

theorem Config.DigitMapOk.digit_lt {c : Config} (h : c.DigitMapOk) (t : SlotState) :
    c.digit t < 10 := h.1 ▸ List.idxOf_lt_length_of_mem (h.mem t)

theorem Config.OpcodeMapOk.get_number {c : Config} (h : c.OpcodeMapOk) (op : Opcode) :
    c.opcodeMap[c.opcodeNumber op]? = some op := by
  rw [Config.opcodeNumber, List.getElem?_eq_getElem (List.idxOf_lt_length_of_mem (h.mem op))]
  exact congrArg some (List.getElem_idxOf _)

theorem Config.DigitMapOk.get_digit {c : Config} (h : c.DigitMapOk) (t : SlotState) :
    c.digitMap[c.digit t]? = some t := by
  rw [Config.digit, List.getElem?_eq_getElem (List.idxOf_lt_length_of_mem (h.mem t))]
  exact congrArg some (List.getElem_idxOf _)

theorem Config.OpcodeMapOk.number_of_get {c : Config} (h : c.OpcodeMapOk) {k : Nat} {op : Opcode}
    (hk : c.opcodeMap[k]? = some op) : c.opcodeNumber op = k := by
  obtain ⟨hl, rfl⟩ := List.getElem?_eq_some_iff.mp hk
  exact h.2.1.idxOf_getElem k hl

theorem Config.DigitMapOk.digit_of_get {c : Config} (h : c.DigitMapOk) {k : Nat} {t : SlotState}
    (hk : c.digitMap[k]? = some t) : c.digit t = k := by
  obtain ⟨hl, rfl⟩ := List.getElem?_eq_some_iff.mp hk
  exact h.2.1.idxOf_getElem k hl

theorem Config.OpcodeMapOk.get_of_lt {c : Config} (h : c.OpcodeMapOk) {k : Nat} (hk : k < 32) :
    ∃ op, c.opcodeMap[k]? = some op :=
  ⟨_, List.getElem?_eq_getElem (h.1.symm ▸ hk)⟩

theorem Config.DigitMapOk.get_of_lt {c : Config} (h : c.DigitMapOk) {k : Nat} (hk : k < 10) :
    ∃ t, c.digitMap[k]? = some t :=
  ⟨_, List.getElem?_eq_getElem (h.1.symm ▸ hk)⟩

/-! ### Records -/

@[simp] theorem Instr.ofRecord_opcode (op : Opcode) (o : Operands) :
    (Instr.ofRecord op o).opcode = op := by cases op <;> rfl

@[simp] theorem Instr.ofRecord_operands (op : Opcode) (o : Operands) :
    (Instr.ofRecord op o).operands = o := by cases op <;> rfl

@[simp] theorem Instr.ofRecord_self (i : Instr) : Instr.ofRecord i.opcode i.operands = i := by
  cases i <;> rfl

@[simp] theorem Slot.placeholder_state (x : Slot) : x.placeholder.state = x.state := by
  cases x <;> rfl

/-! ### Sign extension -/

/-- The low bits of an extended field are the field (R7). -/
theorem trunc_sext {n p : Nat} (hn : n ≤ 32) (hp : p < 2 ^ n) : trunc n (sext n p) = p := by
  have h : (sext n p).setWidth n = BitVec.ofNat n p := by
    refine BitVec.eq_of_getLsbD_eq fun k hk => ?_
    rw [sext, BitVec.getLsbD_setWidth, BitVec.getLsbD_signExtend]
    simp only [hk, show k < 32 by omega, decide_true, Bool.true_and, if_true]
  have := congrArg BitVec.toNat h
  rw [BitVec.toNat_setWidth, BitVec.toNat_ofNat, Nat.mod_eq_of_lt hp] at this
  simpa [trunc, bits] using this

theorem fits_sext {n p : Nat} (hn : n ≤ 32) (hp : p < 2 ^ n) : fits n (sext n p) = true := by
  rw [fits, trunc_sext hn hp, beq_self_eq_true]

theorem trunc_lt (n : Nat) (v : Word) : trunc n v < 2 ^ n := Nat.mod_lt _ (Nat.two_pow_pos n)

theorem bits_lt (v lo len : Nat) : bits v lo len < 2 ^ len := Nat.mod_lt _ (Nat.two_pow_pos len)

/-! ### The payload layout -/

/-- The bits that three slots take, with the derived width, fit in the 17 bits of the payload (R55). -/
theorem payloadBits_sum_le (t0 t1 t2 : SlotState) :
    let w := payloadWidth [t0, t1, t2]
    t0.payloadBits w + t1.payloadBits w + t2.payloadBits w ≤ 17 := by
  rcases t0 with _ | ⟨_ | _ | _, _⟩ <;> rcases t1 with _ | ⟨_ | _ | _, _⟩ <;>
    rcases t2 with _ | ⟨_ | _ | _, _⟩ <;>
    simp [payloadWidth, derivedWidth, countKind, SlotState.hasKind, SlotState.payloadBits]

/-- A derived width is at most 17. -/
theorem payloadWidth_le (ts : List SlotState) : payloadWidth ts ≤ 17 := by
  unfold payloadWidth derivedWidth
  split
  · simp
  · exact (Nat.div_le_self _ _).trans (Nat.sub_le _ _)

/-- Three numbers packed from bit 17 down, as one number over the unused bits. -/
theorem pack_eq {b0 b1 b2 : Nat} (h : b0 + b1 + b2 ≤ 17) (p0 p1 p2 : Nat) :
    p0 * 2 ^ (17 - b0) + p1 * 2 ^ (17 - b0 - b1) + p2 * 2 ^ (17 - b0 - b1 - b2) =
      ((p0 * 2 ^ b1 + p1) * 2 ^ b2 + p2) * 2 ^ (17 - b0 - b1 - b2) := by
  have h1 : 17 - b0 - b1 = (17 - b0 - b1 - b2) + b2 := by omega
  have h0 : 17 - b0 = (17 - b0 - b1 - b2) + b2 + b1 := by omega
  generalize 17 - b0 - b1 - b2 = c at *
  rw [h1, h0, pow_add, pow_add]
  ring

/-- The packed number stays in the payload field. -/
theorem pack_lt {b0 b1 b2 : Nat} (h : b0 + b1 + b2 ≤ 17) {p0 p1 p2 : Nat} (h0 : p0 < 2 ^ b0)
    (h1 : p1 < 2 ^ b1) (h2 : p2 < 2 ^ b2) :
    p0 * 2 ^ (17 - b0) + p1 * 2 ^ (17 - b0 - b1) + p2 * 2 ^ (17 - b0 - b1 - b2) < 2 ^ 17 := by
  rw [pack_eq h]
  have e : (2 : Nat) ^ 17 = ((2 ^ b0 * 2 ^ b1) * 2 ^ b2) * 2 ^ (17 - b0 - b1 - b2) := by
    rw [← pow_add, ← pow_add, ← pow_add]; congr 1; omega
  rw [e]
  refine Nat.mul_lt_mul_of_pos_right ?_ (Nat.two_pow_pos _)
  calc (p0 * 2 ^ b1 + p1) * 2 ^ b2 + p2 < (p0 * 2 ^ b1 + p1) * 2 ^ b2 + 2 ^ b2 := by omega
    _ = (p0 * 2 ^ b1 + p1 + 1) * 2 ^ b2 := by ring
    _ ≤ (2 ^ b0 * 2 ^ b1) * 2 ^ b2 := by
      refine Nat.mul_le_mul_right _ ?_
      calc p0 * 2 ^ b1 + p1 + 1 ≤ p0 * 2 ^ b1 + 2 ^ b1 := by omega
        _ = (p0 + 1) * 2 ^ b1 := by ring
        _ ≤ 2 ^ b0 * 2 ^ b1 := Nat.mul_le_mul_right _ h0

/-- Each packed number is read back at its cursor. -/
theorem bits_pack {b0 b1 b2 : Nat} (h : b0 + b1 + b2 ≤ 17) {p0 p1 p2 : Nat} (h0 : p0 < 2 ^ b0)
    (h1 : p1 < 2 ^ b1) (h2 : p2 < 2 ^ b2) :
    let v := p0 * 2 ^ (17 - b0) + p1 * 2 ^ (17 - b0 - b1) + p2 * 2 ^ (17 - b0 - b1 - b2)
    bits v (17 - b0) b0 = p0 ∧ bits v (17 - b0 - b1) b1 = p1 ∧
      bits v (17 - b0 - b1 - b2) b2 = p2 := by
  intro v
  have hv : v = ((p0 * 2 ^ b1 + p1) * 2 ^ b2 + p2) * 2 ^ (17 - b0 - b1 - b2) := pack_eq h p0 p1 p2
  have e1 : 17 - b0 - b1 = (17 - b0 - b1 - b2) + b2 := by omega
  have e0 : 17 - b0 = (17 - b0 - b1 - b2) + b2 + b1 := by omega
  have d2 : v / 2 ^ (17 - b0 - b1 - b2) = (p0 * 2 ^ b1 + p1) * 2 ^ b2 + p2 := by
    rw [hv, Nat.mul_div_cancel _ (Nat.two_pow_pos _)]
  have d1 : v / 2 ^ (17 - b0 - b1) = p0 * 2 ^ b1 + p1 := by
    rw [e1, pow_add, ← Nat.div_div_eq_div_mul, d2, Nat.mul_comm, Nat.mul_add_div (Nat.two_pow_pos _),
      Nat.div_eq_of_lt h2, Nat.add_zero]
  have d0 : v / 2 ^ (17 - b0) = p0 := by
    rw [show 17 - b0 = (17 - b0 - b1) + b1 by omega, pow_add, ← Nat.div_div_eq_div_mul, d1,
      Nat.mul_comm, Nat.mul_add_div (Nat.two_pow_pos _), Nat.div_eq_of_lt h1, Nat.add_zero]
  refine ⟨?_, ?_, ?_⟩
  · rw [bits, d0, Nat.mod_eq_of_lt h0]
  · rw [bits, d1, Nat.mul_comm, Nat.mul_add_mod, Nat.mod_eq_of_lt h1]
  · rw [bits, d2, Nat.mul_comm, Nat.mul_add_mod, Nat.mod_eq_of_lt h2]

/-- Packing what was read at the three cursors clears the bits below the last one. -/
theorem pack_bits {b0 b1 b2 v : Nat} (h : b0 + b1 + b2 ≤ 17) (hv : v < 2 ^ 17) :
    bits v (17 - b0) b0 * 2 ^ (17 - b0) + bits v (17 - b0 - b1) b1 * 2 ^ (17 - b0 - b1) +
      bits v (17 - b0 - b1 - b2) b2 * 2 ^ (17 - b0 - b1 - b2) =
      v / 2 ^ (17 - b0 - b1 - b2) * 2 ^ (17 - b0 - b1 - b2) := by
  rw [pack_eq h]
  congr 1
  have d1 : v / 2 ^ (17 - b0 - b1) = v / 2 ^ (17 - b0 - b1 - b2) / 2 ^ b2 := by
    rw [Nat.div_div_eq_div_mul, ← pow_add]; congr 2; omega
  have d0 : v / 2 ^ (17 - b0) = v / 2 ^ (17 - b0 - b1) / 2 ^ b1 := by
    rw [Nat.div_div_eq_div_mul, ← pow_add]; congr 2; omega
  have hb : v / 2 ^ (17 - b0) < 2 ^ b0 := by
    refine Nat.div_lt_of_lt_mul ?_
    rw [← pow_add, show 17 - b0 + b0 = 17 by omega]; exact hv
  have e0 : bits v (17 - b0) b0 * 2 ^ b1 + bits v (17 - b0 - b1) b1 = v / 2 ^ (17 - b0 - b1) := by
    rw [bits, Nat.mod_eq_of_lt hb, bits, d0]
    exact Nat.div_add_mod' _ _
  rw [e0, bits, d1]
  exact Nat.div_add_mod' _ _

/-! ### Trailing words -/

/-- One large immediate is one trailing word (R50). -/
theorem Operands.nTrailing_eq (o : Operands) :
    o.nTrailing = (if SlotState.hasKind .lconst o.s0.state then 1 else 0) +
      (if SlotState.hasKind .lconst o.s1.state then 1 else 0) +
      (if SlotState.hasKind .lconst o.s2.state then 1 else 0) := by
  simp only [Operands.nTrailing, countKind, Operands.states, Operands.toList, List.map,
    List.countP_cons, List.countP_nil]
  omega

theorem Operands.trailing_length (o : Operands) : o.trailing.length = o.nTrailing := by
  obtain ⟨a, b, c⟩ := o
  cases a <;> cases b <;> cases c <;> rfl

/-- Filling fails exactly for a large immediate with no word left. -/
theorem Slot.fill_eq_none {x : Slot} {ws : List Word} :
    x.fill ws = none ↔ SlotState.hasKind .lconst x.state = true ∧ ws = [] := by
  cases x <;> simp [Slot.fill, Slot.state, SlotState.hasKind]
  cases ws <;> simp

/-- Filling a slot keeps its state and takes one word exactly for a large immediate. -/
theorem Slot.fill_some {x y : Slot} {ws rest : List Word} (h : x.fill ws = some (y, rest)) :
    ws.length = (if SlotState.hasKind .lconst x.state then 1 else 0) + rest.length ∧
      y.state = x.state := by
  cases x <;> simp [Slot.fill, Slot.state, SlotState.hasKind] at h ⊢
  all_goals try (obtain ⟨rfl, rfl⟩ := h; simp)
  cases ws <;> simp at h
  obtain ⟨rfl, rfl⟩ := h
  simp
  omega

/-- The trailing words of a record fill its placeholders with its own values (R84, R88). -/
theorem Operands.fill_placeholder (o : Operands) (rest : List Word) :
    o.placeholder.fill (o.trailing ++ rest) = some (o, rest) := by
  obtain ⟨a, b, c⟩ := o
  cases a <;> cases b <;> cases c <;> rfl

/-- A stream is read by `decode` and then filled. -/
theorem decodeWords_of_decode {c : Config} {w : Word} {i : Instr} {ws rest : List Word}
    {o : Operands} (h : decode c w = some i) (hf : i.operands.fill ws = some (o, rest)) :
    decodeWords c (w :: ws) = .ok (Instr.ofRecord i.opcode o, rest) := by
  simp only [decodeWords, h, hf]

end Sys2Proof
end

