-- ==== Sys2Proof/Laws/Invariant.lean ====
section
/-! SUPPORT. The named updates of a state, one by one, keep the invariant of Sys2Proof/Safety.lean. -/

namespace Sys2Proof.Machine.State.Inv

variable {s t : State}

/-- A write below its limit. -/
theorem write {l : Loc} {v : Word} (hi : s.Inv) (hl : s.inLimit l = true)
    (h : s.write l v = .ok t) : t.Inv := by
  rcases State.write_cases h with ⟨i, rfl, rfl⟩ | ⟨a, rfl, rfl⟩ | ⟨a, rfl, rfl⟩
  · exact { hi with }
  · simp only [State.inLimit, decide_eq_true_eq] at hl
    exact { hi with
      stackWf := Memory.wf_write hi.stackWf _ _
      stackCells := fun p hp => (Memory.mem_write hp).elim (hi.stackCells p) (fun e => e ▸ hl) }
  · simp only [State.inLimit, decide_eq_true_eq] at hl
    exact { hi with
      heapWf := Memory.wf_write hi.heapWf _ _
      heapCells := fun p hp => (Memory.mem_write hp).elim (hi.heapCells p) (fun e => e ▸ hl) }

theorem setPc (hi : s.Inv) (v : Word) : (s.setPc v).Inv := { hi with }

theorem setSp (hi : s.Inv) {v : Word} (h : v.toNat ≤ s.cfg.stackLimit) : (s.setSp v).Inv :=
  { hi with spLimit := h }

theorem setHwm (hi : s.Inv) {v : Word} (h : v.toNat ≤ s.cfg.heapLimit) : (s.setHwm v).Inv :=
  { hi with hwmLimit := h }

theorem setFlags (hi : s.Inv) {z n : Bool} (h : z = true → n = false) : (s.setFlags z n).Inv :=
  { hi with flags := h }

theorem setJ (hi : s.Inv) (hr : s.status = .running) (b : Bool) : (s.setJ b).Inv :=
  { hi with
    haltedJ := fun h => absurd (hr.symm.trans h) (by simp)
    faultedJ := fun _ h => absurd (hr.symm.trans h) (by simp)
    badLandingJ := fun h => absurd (hr.symm.trans h) (by simp) }

/-- A fault, raised with the value of `J` that its stage allows. -/
theorem raise (hi : s.Inv) {c : Cause}
    (h : s.j = true → c = .fetchPastEnd ∨ c = .decodeInvalid ∨ c = .trailingPastEnd ∨ c = .badLanding)
    (hb : c = .badLanding → s.j = true) : (s.raise c).Inv :=
  { hi with
    haltedJ := fun h => by simp at h
    faultedJ := fun c' hc hj => by
      rw [State.raise_status, Status.faulted.injEq] at hc
      exact hc ▸ h hj
    badLandingJ := fun hc => by
      rw [State.raise_status, Status.faulted.injEq] at hc
      exact hb hc }

/-- One more word on the stack. -/
theorem toNat_sp_add (hi : s.Inv) (h : s.sp.toNat < s.cfg.stackLimit) :
    (s.sp + 1).toNat = s.sp.toNat + 1 := by
  have hlim := hi.cfgOk.2.2.1.2
  have h1 : (1 : Word).toNat = 1 := rfl
  rw [BitVec.toNat_add, h1]
  omega

end Sys2Proof.Machine.State.Inv
end

