-- ==== Sys2Proof/Laws/PerInstr.lean ====
section
/-! SUPPORT. Per-instruction facts about the syntax. -/

namespace Sys2Proof.Laws.Record

/-- A record is rebuilt from its opcode and its slots. -/
def Statement (i : Instr) : Prop := Instr.ofRecord i.opcode i.operands = i

theorem add (o : Operands) : Statement (.add o) := rfl
theorem sub (o : Operands) : Statement (.sub o) := rfl
theorem mul (o : Operands) : Statement (.mul o) := rfl
theorem div (o : Operands) : Statement (.div o) := rfl
theorem or (o : Operands) : Statement (.or o) := rfl
theorem and (o : Operands) : Statement (.and o) := rfl
theorem xor (o : Operands) : Statement (.xor o) := rfl
theorem shl (o : Operands) : Statement (.shl o) := rfl
theorem shr (o : Operands) : Statement (.shr o) := rfl
theorem not (o : Operands) : Statement (.not o) := rfl
theorem cmp (o : Operands) : Statement (.cmp o) := rfl
theorem jmp (o : Operands) : Statement (.jmp o) := rfl
theorem je (o : Operands) : Statement (.je o) := rfl
theorem jl (o : Operands) : Statement (.jl o) := rfl
theorem jle (o : Operands) : Statement (.jle o) := rfl
theorem jne (o : Operands) : Statement (.jne o) := rfl
theorem jnl (o : Operands) : Statement (.jnl o) := rfl
theorem jnle (o : Operands) : Statement (.jnle o) := rfl
theorem call (o : Operands) : Statement (.call o) := rfl
theorem ret (o : Operands) : Statement (.ret o) := rfl
theorem push (o : Operands) : Statement (.push o) := rfl
theorem pop (o : Operands) : Statement (.pop o) := rfl
theorem swap (o : Operands) : Statement (.swap o) := rfl
theorem alloc (o : Operands) : Statement (.alloc o) := rfl
theorem free (o : Operands) : Statement (.free o) := rfl
theorem entry (o : Operands) : Statement (.entry o) := rfl
theorem hlt (o : Operands) : Statement (.hlt o) := rfl
theorem exp0 (o : Operands) : Statement (.exp0 o) := rfl
theorem exp1 (o : Operands) : Statement (.exp1 o) := rfl
theorem exp2 (o : Operands) : Statement (.exp2 o) := rfl
theorem exp3 (o : Operands) : Statement (.exp3 o) := rfl
theorem exp4 (o : Operands) : Statement (.exp4 o) := rfl

end Sys2Proof.Laws.Record
end

