-- ==== Sys2Proof/Tests/Slice0.lean ====
section
/-! SUPPORT. The model's own tests. Expected results are the vectors V1 to V133, S1 to S9 of
95_test_vectors.md; a witness_ theorem shows that the hypotheses of a statement can be met. -/

namespace Sys2Proof.Tests

open Sys2Proof Sys2Proof.Machine

/-! ### WellFormed: each check refuses an ill-formed term -/

theorem test_default_ok : Config.default.Ok := by decide

/-- OPCODE_MAP with a mnemonic missing. -/
theorem test_opcodeMap_short :
    ¬ { Config.default with opcodeMap := [.add, .sub] }.OpcodeMapOk := by decide

/-- OPCODE_MAP with a mnemonic twice. -/
theorem test_opcodeMap_twice :
    ¬ { Config.default with opcodeMap := defaultOpcodeMap.set 1 .add }.OpcodeMapOk := by decide

/-- DIGIT_MAP with a state twice. -/
theorem test_digitMap_twice :
    ¬ { Config.default with digitMap := defaultDigitMap.set 9 .absent }.DigitMapOk := by decide

theorem test_stackLimit_zero : ¬ { Config.default with stackLimit := 0 }.Ok := by decide
theorem test_heapLimit_large : ¬ { Config.default with heapLimit := 2 ^ 32 }.Ok := by decide
theorem test_pageWords_zero : ¬ { Config.default with pageWords := 0 }.Ok := by decide

/-- A bijection that is not the default one is accepted. -/
theorem test_other_map_ok :
    { Config.default with opcodeMap := defaultOpcodeMap.reverse,
                          digitMap := defaultDigitMap.reverse }.Ok := by decide

/-- `add r0 1` is well formed. -/
theorem test_wellFormed : (Instr.add ⟨.reg .direct 0, .sconst .direct 1, .absent⟩).WellFormed := by
  decide

/-- V22: the in-place destination is an immediate. -/
theorem test_invalid_shape :
    ¬ (Instr.add ⟨.sconst .direct 5, .reg .direct 0, .absent⟩).WellFormed := by decide

/-- V17: 100 does not fit 7 bits, though the shape is valid. -/
theorem test_not_encodable :
    (Instr.add ⟨.sconst .direct 100, .sconst .direct 2, .reg .direct 0⟩).validate = true ∧
    ¬ (Instr.add ⟨.sconst .direct 100, .sconst .direct 2, .reg .direct 0⟩).WellFormed := by decide

/-! ### Decoding: one word for each constructor, written out from the spec -/

/-- The words decode to the instruction and nothing is left over. -/
def reads (ws : List Word) (i : Instr) : Bool :=
  match decodeWords Config.default ws with
  | .ok (j, rest) => decide (j = i) && rest.isEmpty
  | .error _ => false

/-- V1 bit by bit: opcode 00000, desc 330 = 0101001010, payload 000 001 and 11 zero bits. -/
theorem test_decode_bits :
    reads [0b00000010100101000000100000000000] (.add ⟨.reg .direct 0, .reg .direct 1, .absent⟩) = true := by
  decide

/-- V1, V53, V57, V58, the instructions `add sub mul div`. -/
theorem test_decode_arithmetic :
    reads [0x02940800] (.add ⟨.reg .direct 0, .reg .direct 1, .absent⟩) = true ∧
    reads [0x0A940800] (.sub ⟨.reg .direct 0, .reg .direct 1, .absent⟩) = true ∧
    reads [0x129A0A00] (.mul ⟨.reg .direct 0, .reg .direct 1, .reg .direct 2⟩) = true ∧
    reads [0x1A940800] (.div ⟨.reg .direct 0, .reg .direct 1, .absent⟩) = true := by decide

/-- V62 to V66, V70, V75. -/
theorem test_decode_bitwise :
    reads [0x22940800] (.or ⟨.reg .direct 0, .reg .direct 1, .absent⟩) = true ∧
    reads [0x2A940800] (.and ⟨.reg .direct 0, .reg .direct 1, .absent⟩) = true ∧
    reads [0x32940800] (.xor ⟨.reg .direct 0, .reg .direct 1, .absent⟩) = true ∧
    reads [0x3A6C0004] (.shl ⟨.reg .direct 0, .sconst .direct 4, .absent⟩) = true ∧
    reads [0x426C0004] (.shr ⟨.reg .direct 0, .sconst .direct 4, .absent⟩) = true ∧
    reads [0x4904002B] (.not ⟨.sconst .direct 5, .reg .direct 3, .absent⟩) = true := by decide

/-- V25, V23, V87, V90. -/
theorem test_decode_jumps :
    reads [0x50DCFF00] (.cmp ⟨.sconst .direct 127, .sconst .direct 0xFFFFFF80, .absent⟩) = true ∧
    reads [0x58C9FFFF] (.jmp ⟨.sconst .direct 0xFFFFFFFF, .absent, .absent⟩) = true ∧
    reads [0x60C80002] (.je ⟨.sconst .direct 2, .absent, .absent⟩) = true ∧
    reads [0x68C80002] (.jl ⟨.sconst .direct 2, .absent, .absent⟩) = true ∧
    reads [0x70C80002] (.jle ⟨.sconst .direct 2, .absent, .absent⟩) = true ∧
    reads [0x79900000, 0xFFFFFFFC] (.jne ⟨.lconst .direct 0xFFFFFFFC, .absent, .absent⟩) = true ∧
    reads [0x80C80002] (.jnl ⟨.sconst .direct 2, .absent, .absent⟩) = true ∧
    reads [0x88C80002] (.jnle ⟨.sconst .direct 2, .absent, .absent⟩) = true := by decide

/-- V91, V5, V6, V107, V8, V9, V47. -/
theorem test_decode_stack_and_heap :
    reads [0x91900000, 3] (.call ⟨.lconst .direct 3, .absent, .absent⟩) = true ∧
    reads [0x98000000] (.ret {}) = true ∧
    reads [0xA1900000, 0x12345678] (.push ⟨.lconst .direct 0x12345678, .absent, .absent⟩) = true ∧
    reads [0xAF084000] (.pop ⟨.reg .heap 1, .absent, .absent⟩) = true ∧
    reads [0xB2D00800] (.swap ⟨.reg .direct 0, .reg .stack 1, .absent⟩) = true ∧
    reads [0xB9040023] (.alloc ⟨.sconst .direct 4, .reg .direct 3, .absent⟩) = true ∧
    reads [0xC2580000] (.free ⟨.reg .direct 0, .absent, .absent⟩) = true := by decide

/-- V46, V3, V125, V21. -/
theorem test_decode_system :
    reads [0xCA58C000] (.entry ⟨.reg .direct 3, .absent, .absent⟩) = true ∧
    reads [0xD0000000] (.hlt {}) = true ∧
    reads [0xD8000000] (.exp0 {}) = true ∧
    reads [0xE0000000] (.exp1 {}) = true ∧
    reads [0xE8000000] (.exp2 {}) = true ∧
    reads [0xF0000000] (.exp3 {}) = true ∧
    reads [0xFFCE0000] (.exp4 ⟨.reg .heap 0, .reg .heap 0, .reg .heap 0⟩) = true := by decide

/-- V7 and V26: trailing words go to the large immediates in slot order. -/
theorem test_decode_trailing :
    reads [0x01C20000, 1, 2, 3]
      (.add ⟨.lconst .direct 1, .lconst .direct 2, .lconst .stack 3⟩) = true ∧
    reads [0x048E4000, 1, 2]
      (.add ⟨.lconst .stack 1, .lconst .heap 2, .reg .direct 1⟩) = true := by decide

/-- V19, V20, V128: no instruction. -/
theorem test_decode_rejects :
    decode .default 0xFFFFFFFF = none ∧ decode .default 0xFFD00000 = none ∧
    decodeWords .default [0xA1900000] = .error .trailingPastEnd ∧
    decodeWords .default [] = .error .pastEnd := by decide

/-- The same word through its bytes, as the table numbers its bits. -/
theorem test_decodeTableWord :
    decodeTableWord 32 0xB9040023 = some (.alloc ⟨.sconst .direct 4, .reg .direct 3, .absent⟩) ∧
    decodeTableWord 32 0xFFD00000 = none := by decide

/-- V13 to V17: the limits of each derived width. -/
theorem test_encode_limits :
    encode .default (.push ⟨.sconst .direct 0xFFFF0000, .absent, .absent⟩) = some (0xA0C90000, []) ∧
    encode .default (.push ⟨.sconst .direct 0x10000, .absent, .absent⟩) = none ∧
    encode .default (.add ⟨.reg .direct 0, .sconst .direct 8191, .absent⟩) = some (0x026C1FFF, []) ∧
    encode .default (.add ⟨.reg .direct 1, .sconst .direct 0xFFFFFC00, .reg .direct 2⟩) =
      some (0x02726002, []) ∧
    encode .default (.add ⟨.sconst .direct 15, .sconst .direct 0xFFFFFFF0, .sconst .stack 3⟩) =
      some (0x00E4F80C, []) := by decide

/-- V24: the result of decoding a word that is not canonical encodes to the canonical word. -/
theorem test_not_canonical :
    decode .default 0x029407FF = some (.add ⟨.reg .direct 0, .reg .direct 0, .absent⟩) ∧
    encode .default (.add ⟨.reg .direct 0, .reg .direct 0, .absent⟩) = some (0x02940000, []) := by
  decide

/-! ### The assembler and the loader -/

/-- S3. -/
theorem test_assemble :
    (match assemble .default [.forward "end", .instr .add [.reg 0, .value 1],
        .instr .jmp [.label "end"], .instr .add [.reg 0, .value 2], .label "end", .instr .hlt []] with
      | .ok ws => ws == [0x026C0001, 0x59900000, 3, 0x026C0002, 0xC8000000, 0xD0000000]
      | .error _ => false) = true := by decide

/-- S4, and S5 at assembly time. -/
theorem test_assemble_rejects :
    (match assemble .default [.instr .jmp [.label "nowhere"]] with
      | .error (.unknownLabel n) => n == "nowhere" | _ => false) = true ∧
    (match assemble .default [.instr .add [.value 5, .reg 0]] with
      | .error .invalidShape => true | _ => false) = true := by decide

/-- U19: operand text that the grammar does not cover, and a word that is no mnemonic. -/
theorem test_assemble_uncovered :
    (match assemble .default [.instr .push [.stackReg 1]] with
      | .error (.uncoveredOperand t) => t == .stackReg 1 | _ => false) = true ∧
    (match assemble .default [.instr .push [.heapReg 1]] with
      | .error (.uncoveredOperand t) => t == .heapReg 1 | _ => false) = true ∧
    (match assemble .default [.instr .jmp [.minus 1]] with
      | .error (.uncoveredOperand t) => t == .minus 1 | _ => false) = true ∧
    (match assemble .default [.noMnemonic "nop"] with
      | .error (.unknownMnemonic w) => w == "nop" | _ => false) = true := by decide

/-- R37, R231: little-endian words, whole words only. -/
theorem test_load :
    (match State.reset.load [0x00, 0x08, 0x94, 0x02, 0x00, 0x00, 0x00, 0xD0] with
      | .ok s => decide (s.prog = [0x02940800, 0xD0000000]) | .error _ => false) = true ∧
    (match State.reset.load [0x00, 0x08, 0x94] with
      | .error .badLength => true | _ => false) = true ∧
    (match State.reset.load [] with | .error .badLength => true | _ => false) = true := by decide

/-! ### One step -/

/-- The reset state with a program. -/
def load (ws : List Word) : State := State.resetWith Config.default ws

/-- Registers and their values, put into a state. -/
def withRegs (s : State) (rs : List (RegIndex × Word)) : State :=
  rs.foldl (fun t p => t.setReg p.1 p.2) s

/-- One step ends in a next state that passes the test. -/
def next (s : State) (p : State → Bool) : Bool :=
  match step s with
  | .next t => p t
  | _ => false

/-- One step raises the fault and changes nothing but `status` (R207). -/
def faults (s : State) (c : Cause) : Bool :=
  match step s with
  | .next t => decide (t = { s with status := .faulted c })
  | _ => false

/-- V50, V51. -/
theorem test_add :
    next (withRegs (load [0x02940800]) [(0, 0xFFFFFFFF), (1, 1)])
      (fun t => t.reg 0 == 0 && t.reg 1 == 1 && t.pc == 1 && !t.z && !t.n) = true ∧
    next (load [0x026C3FFF]) (fun t => t.reg 0 == 0xFFFFFFFF) = true := by decide

/-- V77, V79: stack and heap operands. -/
theorem test_add_memory :
    next { load [0x03340002] with sp := 2, stack := [(2, 41)] }
      (fun t => t.stack == [(2, 42)] && t.sp == 2) = true ∧
    next { load [0x048E4000, 1, 2] with sp := 3, stack := [(4, 100)], heap := [(2, 23)] }
      (fun t => t.reg 1 == 123 && t.pc == 3) = true := by decide

/-- V53. -/
theorem test_sub :
    next (withRegs (load [0x0A940800]) [(1, 1)]) (fun t => t.reg 0 == 0xFFFFFFFF) = true := by decide

/-- V56, V57. -/
theorem test_mul :
    next (withRegs (load [0x12940800]) [(0, 0xFFFFFFFF), (1, 0xFFFFFFFF)])
      (fun t => t.reg 0 == 1) = true ∧
    next (withRegs (load [0x129A0A00]) [(0, 6), (1, 7)])
      (fun t => t.reg 2 == 42 && t.reg 0 == 6) = true := by decide

/-- V59, V61. -/
theorem test_div :
    next (withRegs (load [0x1A940800]) [(0, 0xFFFFFFFE), (1, 2)])
      (fun t => t.reg 0 == 0x7FFFFFFF) = true ∧
    faults (withRegs (load [0x1A940800]) [(0, 9)]) .divideByZero = true := by decide

/-- V62, V63, V64. -/
theorem test_or_and_xor :
    let rs := [((0 : RegIndex), (0x0F0F0000 : Word)), (1, 0x00FF00FF)]
    next (withRegs (load [0x22940800]) rs) (fun t => t.reg 0 == 0x0FFF00FF) = true ∧
    next (withRegs (load [0x2A940800]) rs) (fun t => t.reg 0 == 0x000F0000) = true ∧
    next (withRegs (load [0x32940800]) rs) (fun t => t.reg 0 == 0x0FF000FF) = true := by decide

/-- V67, V68. -/
theorem test_shl :
    next (withRegs (load [0x3A940800]) [(0, 3), (1, 31)]) (fun t => t.reg 0 == 0x80000000) = true ∧
    next (withRegs (load [0x3A940800]) [(0, 3), (1, 32)]) (fun t => t.reg 0 == 0) = true := by decide

/-- V71, V73. -/
theorem test_shr :
    next (withRegs (load [0x42940800]) [(0, 0x80000000), (1, 31)]) (fun t => t.reg 0 == 1) = true ∧
    next (withRegs (load [0x426C3FFF]) [(0, 0x80000000)]) (fun t => t.reg 0 == 0) = true := by decide

/-- V75, V76. -/
theorem test_not :
    next (load [0x4904002B]) (fun t => t.reg 3 == 0xFFFFFFFA) = true ∧
    next (load [0x4A940800]) (fun t => t.reg 1 == 0xFFFFFFFF && t.reg 0 == 0) = true := by decide

/-- V84, V86. -/
theorem test_cmp :
    next (withRegs (load [0x52940800]) [(0, 0x80000000), (1, 1)]) (fun t => !t.z && !t.n) = true ∧
    next (withRegs (load [0x52940800]) [(0, 0xFFFFFFFF)]) (fun t => !t.z && t.n) = true := by decide

/-- V89. -/
theorem test_jmp :
    next (withRegs (load [0x5A580000]) [(0, 0xFFFFFFFF)])
      (fun t => t.pc == 0xFFFFFFFF && t.j) = true := by decide

/-- V87: each conditional jump on the four flag values `(Z, N)`, taken or not. -/
theorem test_conditional_jumps :
    let taken := fun (w : Word) (z n : Bool) =>
      next { load [w] with z := z, n := n } (fun t => t.pc == 2 && t.j && t.z == z && t.n == n)
    let not := fun (w : Word) (z n : Bool) =>
      next { load [w] with z := z, n := n } (fun t => t.pc == 1 && !t.j && t.z == z && t.n == n)
    let row := fun (w : Word) (a b c d : Bool) =>
      (bif a then taken else not) w false false && (bif b then taken else not) w true false &&
        (bif c then taken else not) w false true && (bif d then taken else not) w true true
    row 0x60C80002 false true false true = true ∧ row 0x78C80002 true false true false = true ∧
    row 0x68C80002 false false true true = true ∧ row 0x80C80002 true true false false = true ∧
    row 0x70C80002 false true true true = true ∧ row 0x88C80002 true false false false = true := by
  decide

/-- V90: an untaken jump skips its trailing word. -/
theorem test_jne_trailing :
    next { load [0x79900000, 0xFFFFFFFC] with z := true } (fun t => t.pc == 2 && !t.j) = true := by
  decide

/-- V91. -/
theorem test_call :
    next (load [0x91900000, 3])
      (fun t => t.stack == [(0, 2)] && t.sp == 1 && t.pc == 3 && t.j) = true := by decide

/-- V93, V92. -/
theorem test_ret :
    next { load [0x98000000] with sp := 1, stack := [(0, 2)] }
      (fun t => t.pc == 2 && t.sp == 0 && !t.j && t.stack == [(0, 2)]) = true ∧
    faults (load [0x98000000]) .stackUnderflow = true := by decide

/-- V102, V103. -/
theorem test_push :
    next { load [0xA321FFFF] with sp := 2, stack := [(0, 5), (1, 6)] }
      (fun t => t.stack == [(0, 5), (1, 6), (2, 6)] && t.sp == 3) = true ∧
    next (load [0xA0C90000]) (fun t => t.stack == [(0, 0xFFFF0000)] && t.sp == 1) = true := by decide

/-- V106, V108. -/
theorem test_pop :
    next { load [0xAB200000] with sp := 2, stack := [(0, 5), (1, 6)] }
      (fun t => t.stack == [(0, 5), (1, 6), (2, 6)] && t.sp == 1) = true ∧
    faults (load [0xAA580000]) .stackUnderflow = true := by decide

/-- V110, V112. -/
theorem test_swap :
    next { withRegs (load [0xB2D00800]) [(0, 1)] with sp := 2, stack := [(2, 9)] }
      (fun t => t.reg 0 == 9 && t.stack == [(2, 1)]) = true ∧
    next { load [0xB371FFFC] with sp := 2, stack := [(0, 10), (1, 20)] }
      (fun t => t.stack == [(0, 20), (1, 10)]) = true := by decide

/-- V116, V117. -/
theorem test_alloc :
    next { withRegs (load [0xBB0C0800]) [(0, 3), (1, 7)] with hwm := 10 }
      (fun t => t.heap == [(7, 10)] && t.hwm == 13) = true ∧
    faults { withRegs (load [0xBA940800]) [(0, 0xFFFFFFFF)] with hwm := 1 } .memoryLimit = true := by
  decide

/-- V118. -/
theorem test_free : faults (load [0xC2580000]) .unimplemented = true := by decide

/-- V120, V122. -/
theorem test_entry :
    next { load [0xC8000000] with j := true }
      (fun t => t.pc == 1 && !t.j && t.status == .running) = true ∧
    next { load [0xCA58C000] with j := true } (fun t => t.pc == 1 && !t.j) = true := by decide

/-- V123, V124. -/
theorem test_hlt :
    next (load [0xD0000000]) (fun t => t.pc == 0 && t.status == .halted) = true ∧
    faults { load [0xD0000000] with j := true } .badLanding = true := by decide

/-- V125. -/
theorem test_expansion :
    faults (load [0xD8000000]) .invalidInstruction = true ∧
    faults (load [0xE0000000]) .invalidInstruction = true ∧
    faults (load [0xE8000000]) .invalidInstruction = true ∧
    faults (load [0xF0000000]) .invalidInstruction = true ∧
    faults (load [0xF8000000]) .invalidInstruction = true := by decide

/-- V126 to V131: the order of the stages. -/
theorem test_fault_priority :
    faults { load [0xD8000000] with j := true } .badLanding = true ∧
    faults { load [0xD0000000] with pc := 1 } .fetchPastEnd = true ∧
    faults { load [0xFFD00000] with j := true } .decodeInvalid = true ∧
    faults { load [0xA1900000] with j := true } .trailingPastEnd = true ∧
    faults (load [0x01040028]) .invalidInstruction = true := by decide

/-- R200: code 1, and the address past the end. -/
theorem test_fault_record :
    next { load [0xD0000000] with pc := 1 } (fun t => t.faultRecord == some (1, 1)) = true := by decide

/-- R35: the last cell below the limit is there, the next one is not. -/
theorem test_limit :
    next { load [0x058C0A02] with cfg := { Config.default with heapLimit := 6 } }
      (fun t => t.heap == [(5, 1)]) = true ∧
    faults { load [0x058C0A02] with cfg := { Config.default with heapLimit := 5 } } .memoryLimit =
      true := by decide

/-- Writing the value that an unlisted cell reads as removes the cell. -/
theorem test_canonical_write :
    Memory.write (fun _ => 0) [(3, 7), (5, 9)] 3 0 = [(5, 9)] ∧
    Memory.write (fun _ => 0) [(3, 7)] 1 2 = [(1, 2), (3, 7)] := by decide

/-! ### Witnesses: the hypotheses of the statements can be met -/

/-- An instruction that passes stages 3 to 5, from a test that Lean evaluates. -/
theorem executes_of {s : State} {i : Instr}
    (h : (!s.j && i.validate && s.inLimits i.operands) = true) : s.Executes i := by
  simp only [Bool.and_eq_true, Bool.not_eq_true'] at h
  exact ⟨h.1.1, h.1.2, h.2⟩

/-- A state in the middle of a run. -/
def busy : State :=
  { withRegs (load [0xB9040023, 0xD0000000]) [(0, 3), (1, 7)] with
    sp := 2, hwm := 4, stack := [(0, 5), (1, 6)], heap := [(5, 9)] }

/-- A state at its limits: one stack cell, used; four heap cells. -/
def full : State :=
  { busy with
    cfg := { Config.default with stackLimit := 1, heapLimit := 6 }
    sp := 1, stack := [(0, 5)] }

theorem witness_inv_busy : busy.Inv :=
  ⟨by decide, by decide, by decide, by decide, by decide, by decide, by decide, by decide,
    by decide, by decide, fun c h => by simp [busy, load, withRegs] at h, by decide⟩

theorem witness_inv_full : full.Inv :=
  ⟨by decide, by decide, by decide, by decide, by decide, by decide, by decide, by decide,
    by decide, by decide, fun c h => by simp [full, busy, load, withRegs] at h, by decide⟩

/-- DecodeOfEncodeIsTheRecord, EncodedWordHasTheThreeFields: a record at the limit of its width, under
maps that are not the default ones. -/
theorem witness_encodable :
    let c := { Config.default with opcodeMap := defaultOpcodeMap.reverse }
    let i : Instr := .add ⟨.sconst .direct 63, .sconst .direct 0xFFFFFFC0, .reg .direct 7⟩
    c.OpcodeMapOk ∧ c.DigitMapOk ∧ i.encodable = true ∧ (encode c i).isSome = true := by decide

/-- EncodeOfDecodeClearsUnusedBits, in both clauses: unused bits set, and none set. -/
theorem witness_decoded :
    Config.default.OpcodeMapOk ∧ Config.default.DigitMapOk ∧
    decodeWords .default [0x029407FF, 8] =
      .ok (.add ⟨.reg .direct 0, .reg .direct 0, .absent⟩, [8]) ∧
    decodeWords .default [0x02940800] =
      .ok (.add ⟨.reg .direct 0, .reg .direct 1, .absent⟩, []) ∧
    (0x02940800 : Word).toNat % 2 ^ unusedBits ⟨.reg .direct 0, .reg .direct 1, .absent⟩ = 0 := by
  decide

/-- DecodeTotalAndBlindToUnusedBits: descriptors 999 and 1000, and two words of one record. -/
theorem witness_blind :
    (0xFFCE0000 : Word).toNat / 2 ^ 17 % 2 ^ 10 = 999 ∧
    (0xFFD00000 : Word).toNat / 2 ^ 17 % 2 ^ 10 = 1000 ∧
    decode .default 0xFFCE0000 = some (.exp4 ⟨.reg .heap 0, .reg .heap 0, .reg .heap 0⟩) ∧
    decode .default 0xFFCE00FF = some (.exp4 ⟨.reg .heap 0, .reg .heap 0, .reg .heap 0⟩) := by decide

/-- DerivedWidthIsTheLargestFairWidth. -/
theorem witness_width :
    1 ≤ countKind .sconst [.present .reg .direct, .present .sconst .heap, .present .reg .stack] := by
  decide

/-- LengthFromTheDescriptorDigits: three large immediates, with two and with three words to take. -/
theorem witness_length :
    (0x01C20000 : Word).toNat / 2 ^ 17 % 2 ^ 10 = 225 ∧
    [2, 2, 5].countP (fun d => d == 2 || d == 5 || d == 8) = 3 ∧
    [(1 : Word), 2].length < 3 ∧ 3 ≤ [(1 : Word), 2, 3].length := by decide

/-- DecoderPortsUndoEncoderPorts: `add 40 2 @r3` on the ports. -/
theorem witness_ports :
    let p : EncoderIn := { op := 0, state0 := 1, state1 := 1, state2 := 9, val0 := 40, val1 := 2, val2 := 3 }
    recordOfPorts .default p =
      some (.add ⟨.sconst .direct 40, .sconst .direct 2, .reg .heap 3⟩) ∧
    (encoderPorts .default p).map EncoderOut.rangeError = some false := by decide

/-- LoaderBuildsLittleEndianWords: the shortest program. -/
theorem witness_bytes :
    let bytes : List Byte := [0, 0, 0, 0xD0]
    0 < bytes.length ∧ bytes.length % 4 = 0 ∧ bytes.length / 4 ≤ 2 ^ 32 - 1 := by decide

/-- JumpToALabelReachesTheLabel: the label of S3. -/
theorem witness_label :
    "end" ∈ ["end"] ∧ lookupLabel "end" [("end", 4)] = some 4 ∧
    ({ busy with pc := 1 }).j = false ∧ ({ busy with pc := 1 }).pc = BitVec.ofNat 32 1 := by decide

/-- MemorySlotsAddressStackAndHeap: the last cell and the first one past it, for a constant and for a
register. -/
theorem witness_memory_slots :
    busy.resolve (.lconst .heap 0xFFFFFFFE) = .ok (some (.heapCell 0xFFFFFFFE)) ∧
    busy.resolve (.lconst .heap 0xFFFFFFFF) = .error (.raise .memoryLimit) ∧
    busy.resolve (.sconst .stack 0xFFFFFFFF) = .ok (some (.stackCell 1)) ∧
    busy.resolve (.lconst .stack 0xFFFFFFFD) = .error (.raise .memoryLimit) ∧
    busy.resolve (.reg .stack 0) = .ok (some (.stackCell 5)) ∧ busy.reg 0 = 3 := by decide

/-- WriteChangesOnePlace: its places, and an immediate. -/
theorem witness_write : busy.Inv ∧ (∀ u, Loc.stackCell 1 ≠ .imm u) ∧ Loc.imm 3 = .imm 3 :=
  ⟨witness_inv_busy, by simp, rfl⟩

/-- StepRunsTheDecodedInstruction, ProgramAndParametersNeverChange, PageSizeHasNoEffect,
StepKeepsTheInvariant: a running state that meets the invariant, with an instruction at `pc`. -/
theorem witness_running :
    busy.status = .running ∧
    decodeWords busy.cfg (busy.prog.drop busy.pc.toNat) =
      .ok (.alloc ⟨.sconst .direct 4, .reg .direct 3, .absent⟩, [0xD0000000]) ∧
    next busy (fun t => t.hwm == 8) = true ∧ busy.Inv :=
  ⟨by decide, by decide, by decide, witness_inv_busy⟩

/-- StoppedCoreDoesNothing. -/
theorem witness_stopped :
    ({ busy with status := .halted }).status ≠ .running ∧
    ({ busy with status := .faulted .badLanding }).status ≠ .running := by decide

/-- StepIsAtomicAndOnlyWhileRunning, FaultRecordsItsCodeAndAddress, OnlyHltHalts. -/
theorem witness_ends :
    faults { busy with pc := 2 } .fetchPastEnd = true ∧
    next { busy with pc := 1 } (fun t => t.status == .halted) = true := by decide

/-- FetchPastEndFaults at the first index past the end, BadDescriptorFaults at 1000,
TrailingPastEndFaults with one word missing. -/
theorem witness_fetch_faults :
    ({ busy with pc := 2 }).progLen ≤ ({ busy with pc := 2 }).pc.toNat ∧
    (load [0xFFD00000]).prog[0]? = some 0xFFD00000 ∧
    1000 ≤ (0xFFD00000 : Word).toNat / 2 ^ 17 % 2 ^ 10 ∧
    (load [0xA1900000]).prog[0]? = some 0xA1900000 ∧
    decode .default 0xA1900000 = some (.push ⟨.lconst .direct 0, .absent, .absent⟩) ∧
    (load [0xA1900000]).progLen <
      0 + 1 + Operands.nTrailing ⟨.lconst .direct 0, .absent, .absent⟩ := by decide

/-- LandingCheck: a landing on `entry`, on another opcode, and past the end. -/
theorem witness_landing :
    let s := { load [0xC8000000, 0xD0000000] with j := true }
    s.status = .running ∧
    decodeWords s.cfg (s.prog.drop 0) = .ok (.entry {}, [0xD0000000]) ∧
    decodeWords s.cfg (s.prog.drop 1) = .ok (.hlt {}, []) ∧
    decodeWords s.cfg (s.prog.drop 2) = .error .pastEnd ∧ s.j = true := by decide

/-- LandingCheck, the other two fetches that fail, with a landing due: V129, V130. -/
theorem witness_landing_fetch :
    let s := { load [0xFFD00000, 0xA1900000] with j := true }
    decodeWords s.cfg (s.prog.drop 0) = .error .descError ∧
    decodeWords s.cfg (s.prog.drop 1) = .error .trailingPastEnd ∧ s.j = true := by decide

/-- InvalidInstructionFaults, ResolutionFaultsBeforeExecution: V22, and `div` by 0 with an operand past
the limit. -/
theorem witness_stages :
    (Instr.add ⟨.sconst .direct 5, .reg .direct 0, .absent⟩).validate = false ∧
    (Instr.div ⟨.reg .direct 0, .lconst .heap 6, .absent⟩).validate = true ∧
    full.j = false ∧ full.resolve (.lconst .heap 6) = .error (.raise .memoryLimit) := by decide

/-- FlagsAreCmpsAndTheConditionalJumps, JIsSetByTakenJumpsAndCalls, OnlyAllocUsesTheWatermark and the
three frames: instructions of each kind that end in a next state of a running core. -/
theorem witness_next :
    let ok := fun (i : Instr) => match exec i busy with
      | .next t => t.status == .running
      | _ => false
    busy.j = false ∧
    ok (.cmp ⟨.reg .direct 0, .reg .direct 1, .absent⟩) = true ∧
    ok (.jne ⟨.sconst .direct 1, .absent, .absent⟩) = true ∧
    ok (.jmp ⟨.sconst .direct 1, .absent, .absent⟩) = true ∧
    ok (.add ⟨.reg .direct 0, .sconst .heap 5, .sconst .stack 0⟩) = true ∧
    ok (.swap ⟨.reg .direct 0, .sconst .heap 5, .absent⟩) = true ∧
    ok (.call ⟨.reg .direct 0, .absent, .absent⟩) = true := by decide

/-- ResetHasTheInvariant, ResetLeavesTheResetValues: parameters that R6 allows, with a value of
MEM_INIT that is not 0. -/
theorem witness_parameters :
    { Config.default with memInit := some 0xA5A5A5A5, stackLimit := 1 }.Ok := by decide

/-- The result statements: every valid instruction executes on readable operands. -/
theorem witness_executes :
    ∀ i ∈ [Instr.add ⟨.reg .direct 0, .sconst .stack 0, .absent⟩,
        .sub ⟨.sconst .direct 5, .lconst .direct 6, .reg .heap 0⟩,
        .mul ⟨.reg .direct 0, .reg .direct 0, .absent⟩,
        .div ⟨.reg .direct 0, .reg .direct 1, .absent⟩,
        .or ⟨.reg .direct 0, .reg .direct 1, .absent⟩,
        .and ⟨.reg .direct 0, .reg .direct 1, .reg .direct 2⟩,
        .xor ⟨.sconst .heap 5, .reg .direct 1, .absent⟩,
        .shl ⟨.reg .direct 0, .sconst .direct 0xFFFFFFFF, .absent⟩,
        .shr ⟨.reg .direct 0, .reg .direct 1, .absent⟩,
        .not ⟨.sconst .direct 5, .reg .direct 3, .absent⟩,
        .cmp ⟨.sconst .direct 1, .sconst .direct 2, .absent⟩,
        .jmp ⟨.sconst .direct 1, .absent, .absent⟩, .je ⟨.reg .direct 0, .absent, .absent⟩,
        .jl ⟨.reg .direct 0, .absent, .absent⟩, .jle ⟨.sconst .stack 0, .absent, .absent⟩,
        .jne ⟨.lconst .direct 7, .absent, .absent⟩, .jnl ⟨.reg .heap 0, .absent, .absent⟩,
        .jnle ⟨.reg .direct 0, .absent, .absent⟩, .call ⟨.reg .direct 1, .absent, .absent⟩,
        .ret {}, .push ⟨.reg .direct 0, .absent, .absent⟩,
        .pop ⟨.sconst .stack 0, .absent, .absent⟩,
        .swap ⟨.reg .direct 0, .sconst .stack 0xFFFFFFFF, .absent⟩,
        .alloc ⟨.reg .direct 0, .reg .heap 1, .absent⟩,
        .free ⟨.sconst .direct 1, .absent, .absent⟩, .hlt {}],
      busy.Executes i := by
  intro i hi
  exact executes_of (by revert i; decide)

/-- DivStoresTheQuotientOrFaults: a zero and a nonzero divisor. -/
theorem witness_divisor : busy.read (.reg 2) = 0 ∧ busy.read (.reg 1) ≠ 0 := by decide

/-- CallPushesTheReturnAddress, PushWritesTheFirstFreeCell: below and at the stack limit. -/
theorem witness_stack_limit :
    busy.sp.toNat < busy.cfg.stackLimit ∧ full.cfg.stackLimit ≤ full.sp.toNat ∧
    full.Executes (.push ⟨.reg .direct 0, .absent, .absent⟩) :=
  ⟨by decide, by decide, executes_of (by decide)⟩

/-- RetPopsTheProgramCounter, PopWritesTheTopOfStack: an empty stack and one that is not. -/
theorem witness_stack_bottom :
    busy.sp ≠ 0 ∧ ({ busy with sp := 0 }).sp = 0 ∧
    State.Executes { busy with sp := 0 } (.pop ⟨.reg .direct 0, .absent, .absent⟩) :=
  ⟨by decide, by decide, executes_of (by decide)⟩

/-- RetUndoesCall: the state after the `call`, landed, is such a `u`. -/
theorem witness_call :
    let o : Operands := ⟨.reg .direct 1, .absent, .absent⟩
    let t := { busy.setStackCell 2 1 with sp := 3, pc := 7, j := true }
    busy.Inv ∧ busy.Executes (.call o) ∧ exec (.call o) busy = .next t ∧
      t.status = .running ∧ ({ t with j := false }).sp = t.sp :=
  ⟨witness_inv_busy, executes_of (by decide), by rfl, by decide, by decide⟩

/-- SwapExchangesTwoPlaces, with the two places the same. -/
theorem witness_swap :
    busy.Inv ∧ busy.Executes (.swap ⟨.reg .direct 0, .sconst .heap 5, .absent⟩) ∧
    busy.Executes (.swap ⟨.reg .direct 7, .reg .direct 7, .absent⟩) :=
  ⟨witness_inv_busy, executes_of (by decide), executes_of (by decide)⟩

/-- AllocReturnsTheOldWatermark: a block that ends at the heap limit, and one a word longer. -/
theorem witness_heap_limit :
    full.Executes (.alloc ⟨.sconst .direct 2, .reg .direct 0, .absent⟩) ∧
    full.hwm.toNat + (full.read (.imm 2)).toNat ≤ full.cfg.heapLimit ∧
    full.cfg.heapLimit < full.hwm.toNat + (full.read (.imm 3)).toNat :=
  ⟨executes_of (by decide), by decide, by decide⟩

/-- AllocatedRangesNeverOverlap: two `alloc`s in a row. -/
theorem witness_two_allocs :
    let o : Operands := ⟨.sconst .direct 2, .reg .direct 0, .absent⟩
    let t := { busy.setReg 0 4 with hwm := 6, pc := 1 }
    let v := { t.setReg 0 6 with hwm := 8, pc := 2 }
    busy.Inv ∧ busy.status = .running ∧ busy.locate o.s0 = some (.imm 2) ∧
      busy.locate o.s1 = some (.reg 0) ∧ exec (.alloc o) busy = .next t ∧ t.status = .running ∧
      Host.Core.run core 0 t = .next t ∧ exec (.alloc o) t = .next v ∧ v.status = .running :=
  ⟨witness_inv_busy, by decide, by decide, by decide, by rfl, by decide, by rfl, by rfl, by decide⟩

/-- ExpansionOpcodesAreInvalid: with and without a landing due. -/
theorem witness_expansion : busy.j = false ∧ ({ busy with j := true }).j = true := by decide

end Sys2Proof.Tests
end

section
/-! PROOFS. Who reads and who writes the flags (10_state.md R19) and the watermark (R24): a change of
either is blind in the sense of Laws/Blind.lean, and the effects of Laws/Exec.lean say which
instruction moves it. -/

namespace Sys2Proof.Machine

variable {i : Instr} {s t : State}

/-! ### The updates as blind changes -/

@[simp] theorem State.setFlags_setFlags (s : State) (z n z' n' : Bool) :
    (s.setFlags z n).setFlags z' n' = s.setFlags z' n' := rfl

theorem State.setFlags_blind (z n : Bool) : Blind (State.setFlags · z n) := by
  constructor <;> intros <;> rfl

theorem State.setHwm_blind (v : Word) : Blind (State.setHwm · v) := by
  constructor <;> intros <;> rfl

/-- One and the same rule, run before and after a blind change, ends in the same state, or in the same
fault of two states that differ by the change alone. -/
theorem Blind.execute_same_body {f : State → State} (hf : Blind f) {body : Locs → Except Stop State}
    (h : execute i s body = .next t) :
    execute i (f s) body = .next t ∨
      (∃ c, t = s.raise c) ∧ execute i (f s) body = .next (f t) := by
  rw [execute_eq] at h ⊢
  rw [hf.j, hf.inLimits, hf.locateAll]
  split_ifs at h ⊢
  · cases h; exact .inr ⟨⟨_, rfl⟩, congrArg _ (hf.raise _)⟩
  · rcases finish_eq_next h with hb | ⟨c, hb, rfl⟩
    · exact .inl (by rw [hb, finish_ok])
    · exact .inr ⟨⟨c, rfl⟩, by rw [hb, finish_raise, hf.raise]⟩
  · cases h; exact .inr ⟨⟨_, rfl⟩, congrArg _ (hf.raise _)⟩
  · cases h; exact .inr ⟨⟨_, rfl⟩, congrArg _ (hf.raise _)⟩

/-! ### The flags -/

theorem State.write_flags {l : Loc} {v : Word} (h : s.write l v = .ok t) :
    t.z = s.z ∧ t.n = s.n := by
  obtain ⟨-, -, -, -, -, hz, hn, -, -⟩ := State.write_other h
  exact ⟨hz, hn⟩

/-- The flags are written by `cmp` alone (R19). -/
theorem Effect.flags_eq (h : Effect i s t) (hc : i.opcode ≠ .cmp) : t.z = s.z ∧ t.n = s.n := by
  cases h with
  | compared _ hop => exact absurd hop hc
  | stored _ _ _ _ _ _ hw => simpa using State.write_flags hw
  | popped _ _ _ _ _ _ _ hw => simpa using State.write_flags hw
  | allocated _ _ _ _ _ _ _ _ _ hw => simpa using State.write_flags hw
  | swapped _ _ _ _ _ _ _ _ _ hw0 hw1 =>
    obtain ⟨hz0, hn0⟩ := State.write_flags hw0
    obtain ⟨hz1, hn1⟩ := State.write_flags hw1
    exact ⟨hz1.trans hz0, hn1.trans hn0⟩
  | _ => exact ⟨rfl, rfl⟩

/-- `cmp` overwrites both flags, so its own rule does not see what they were (R160). -/
theorem rule_cmp_setFlags (hc : i.opcode = .cmp) (z n : Bool) :
    rule i (s.setFlags z n) = rule i s := by
  have hb := State.setFlags_blind z n
  cases i <;> cases hc
  funext locs
  simp only [rule, cmpBody, hb.npc, hb.read, State.setFlags_setFlags]

/-- A `cmp` after a change of the flags ends in the same state, unless it faults and leaves the changed
flags as they are (R19, R207). -/
theorem exec_setFlags_of_cmp (hc : i.opcode = .cmp) (h : exec i s = .next t) (z n : Bool) :
    exec i (s.setFlags z n) = .next t ∨
      (∃ c, t = s.raise c) ∧ exec i (s.setFlags z n) = .next (t.setFlags z n) := by
  have hn : i.opcode ≠ .entry := by simp [hc]
  rw [exec_eq i _ hn] at h ⊢
  rw [rule_cmp_setFlags hc]
  exact (State.setFlags_blind z n).execute_same_body h

/-- Only the conditional jumps read the flags: any other instruction but `cmp` passes a change of them
on (R19). -/
theorem exec_setFlags (hc : i.opcode ≠ .cmp) (hj : i.opcode ∉ [.je, .jl, .jle, .jne, .jnl, .jnle])
    (h : exec i s = .next t) (z n : Bool) : exec i (s.setFlags z n) = .next (t.setFlags z n) :=
  (State.setFlags_blind z n).exec (.inr ⟨fun _ => rfl, fun _ _ => rfl⟩) (.inl hc) (.inl hj) h

/-! ### The watermark -/

theorem State.write_hwm {l : Loc} {v : Word} (h : s.write l v = .ok t) : t.hwm = s.hwm := by
  obtain ⟨-, -, -, -, hw, -, -, -, -⟩ := State.write_other h
  exact hw

/-- The watermark stays, or an `alloc` moves it up by the size it reads, within the heap (R184). -/
theorem Effect.hwm_cases (h : Effect i s t) :
    t.hwm = s.hwm ∨ i.opcode = .alloc ∧ ∃ size : Word, t.hwm = s.hwm + size ∧
      s.hwm.toNat + size.toNat ≤ s.cfg.heapLimit := by
  cases h with
  | stored _ _ _ _ _ _ hw => exact .inl (by simpa using State.write_hwm hw)
  | popped _ _ _ _ _ _ _ hw => exact .inl (by simpa using State.write_hwm hw)
  | swapped _ _ _ _ _ _ _ _ _ hw0 hw1 =>
    exact .inl ((State.write_hwm hw1).trans (State.write_hwm hw0))
  | allocated _ hop _ _ _ _ hlim _ _ hw => exact .inr ⟨hop, _, State.write_hwm hw, hlim⟩
  | _ => exact .inl rfl

/-- The watermark never decreases: the bound of R6 on the heap rules out a wrap of the sum (R24). -/
theorem Effect.hwm_le (h : Effect i s t) (hi : s.Inv) : s.hwm.toNat ≤ t.hwm.toNat := by
  rcases h.hwm_cases with e | ⟨-, size, e, hlim⟩
  · rw [e]
  · obtain ⟨-, -, -, ⟨-, hmax⟩, -⟩ := hi.cfgOk
    rw [e, BitVec.toNat_add_of_lt (by omega)]
    omega

/-- Only `alloc` reads the watermark: any other instruction passes a change of it on (R24). -/
theorem exec_setHwm (ha : i.opcode ≠ .alloc) (h : exec i s = .next t) (v : Word) :
    exec i (s.setHwm v) = .next (t.setHwm v) :=
  (State.setHwm_blind v).exec (.inl ha) (.inr fun _ _ _ => rfl)
    (.inr ⟨fun _ => rfl, fun _ => rfl⟩) h

end Sys2Proof.Machine

namespace Sys2Proof

open Machine

/-- Settles O29: every instruction but `cmp` and the conditional jumps passes a change of the flags on,
and `cmp` overwrites it. -/
theorem flagsAreCmpsAndTheConditionalJumps : Obligations.FlagsAreCmpsAndTheConditionalJumps := by
  intro i s t h
  refine ⟨(exec_effect h).flags_eq, fun hj z n => ?_⟩
  by_cases hc : i.opcode = .cmp
  · rcases exec_setFlags_of_cmp hc h z n with hu | ⟨⟨c, rfl⟩, hu⟩
    · exact ⟨t, hu, rfl, fun _ _ => rfl⟩
    · exact ⟨_, hu, rfl, fun _ hr => by simp at hr⟩
  · exact ⟨_, exec_setFlags hc hj h z n, rfl, fun hc' => absurd hc' hc⟩

/-- Settles O32: only the effect of `alloc` moves the watermark, up and inside the heap, and every other
instruction passes a change of it on. -/
theorem onlyAllocUsesTheWatermark : Obligations.OnlyAllocUsesTheWatermark := by
  refine ⟨State.resetWith_hwm, fun i s t hi h => ⟨(exec_effect h).hwm_le hi, fun ha v => ?_⟩⟩
  refine ⟨exec_setHwm ha h v, ?_⟩
  rcases (exec_effect h).hwm_cases with e | ⟨ha', -⟩
  · exact e
  · exact absurd ha' ha

end Sys2Proof
end

section
/-! PROOFS. How many words an instruction takes (30_encoding.md R62): `decode` keeps the descriptor's
states, filling takes one word per large immediate, and the default digits 2, 5 and 8 are the large
immediates. -/

namespace Sys2Proof

/-! ### What `decode` keeps -/

@[simp] theorem unpackSlot_state (w payload c : Nat) (t : SlotState) :
    (unpackSlot w payload c t).state = t := by
  rcases t with _ | ⟨_ | _ | _, l⟩ <;> rfl

@[simp] theorem unpackOperands_states (payload : Nat) (t0 t1 t2 : SlotState) :
    (unpackOperands payload t0 t1 t2).states = [t0, t1, t2] := by
  simp [unpackOperands, Operands.states, Operands.toList]

/-- A word with a descriptor of at most 999 decodes, and its digits name the states of the slots (R86). -/
theorem decode_of_desc_lt {c : Config} (ho : c.OpcodeMapOk) (hd : c.DigitMapOk) {w : Word}
    (h : bits w.toNat 17 10 < 1000) :
    ∃ i t0 t1 t2, decode c w = some i ∧ i.operands.states = [t0, t1, t2] ∧
      c.digitMap[bits w.toNat 17 10 / 100]? = some t0 ∧
      c.digitMap[bits w.toNat 17 10 / 10 % 10]? = some t1 ∧
      c.digitMap[bits w.toNat 17 10 % 10]? = some t2 := by
  obtain ⟨op, hop⟩ := ho.get_of_lt (bits_lt w.toNat 27 5)
  obtain ⟨t0, h0⟩ := hd.get_of_lt (k := bits w.toNat 17 10 / 100) (by omega)
  obtain ⟨t1, h1⟩ := hd.get_of_lt (k := bits w.toNat 17 10 / 10 % 10) (by omega)
  obtain ⟨t2, h2⟩ := hd.get_of_lt (k := bits w.toNat 17 10 % 10) (by omega)
  refine ⟨Instr.ofRecord op (unpackOperands (bits w.toNat 0 17) t0 t1 t2), t0, t1, t2, ?_, ?_,
    h0, h1, h2⟩
  · simp only [decode, hop, h0, h1, h2, if_neg (Nat.not_le.mpr h)]
  · simp

/-! ### How many words filling takes -/

/-- The trailing words of one slot: one for a large immediate (R50). -/
def Slot.nTrailing (x : Slot) : Nat := if SlotState.hasKind .lconst x.state then 1 else 0

theorem Operands.nTrailing_eq_sum (o : Operands) :
    o.nTrailing = o.s0.nTrailing + o.s1.nTrailing + o.s2.nTrailing := o.nTrailing_eq

theorem Operands.nTrailing_congr {o o' : Operands} (h : o'.states = o.states) :
    o'.nTrailing = o.nTrailing := congrArg (countKind .lconst) h

/-- A slot with enough words left is filled, and takes exactly its own from the front (R88). -/
theorem Slot.fill_of_le {x : Slot} {ws : List Word} (h : x.nTrailing ≤ ws.length) :
    ∃ y, x.fill ws = some (y, ws.drop x.nTrailing) ∧ y.state = x.state := by
  cases x with
  | lconst l v =>
    cases ws with
    | nil => cases h
    | cons w rest => exact ⟨.lconst l w, rfl, rfl⟩
  | _ => exact ⟨_, rfl, rfl⟩

/-- With enough words left the three slots are filled, and take exactly theirs (R88). -/
theorem Operands.fill_of_le {o : Operands} {ws : List Word} (h : o.nTrailing ≤ ws.length) :
    ∃ o', o.fill ws = some (o', ws.drop o.nTrailing) ∧ o'.states = o.states := by
  rw [o.nTrailing_eq_sum] at h ⊢
  obtain ⟨a, ha, sa⟩ := o.s0.fill_of_le (ws := ws) (by omega)
  obtain ⟨b, hb, sb⟩ := o.s1.fill_of_le (ws := ws.drop o.s0.nTrailing) (by
    rw [List.length_drop]; omega)
  obtain ⟨d, hd, sd⟩ := o.s2.fill_of_le
    (ws := (ws.drop o.s0.nTrailing).drop o.s1.nTrailing) (by
      rw [List.length_drop, List.length_drop]; omega)
  refine ⟨⟨a, b, d⟩, ?_, ?_⟩
  · simp only [Operands.fill, ha, hb, hd, ← List.drop_drop]
  · simp only [Operands.states, Operands.toList, List.map, sa, sb, sd]

/-- Filling that succeeds has taken the trailing words from the stream (R122). -/
theorem Operands.fill_length {o o' : Operands} {ws rest : List Word}
    (h : o.fill ws = some (o', rest)) : ws.length = o.nTrailing + rest.length := by
  unfold Operands.fill at h
  split at h
  · cases h
  next a ws0 ha =>
  split at h
  · cases h
  next b ws1 hb =>
  split at h
  · cases h
  next d ws2 hd =>
  cases h
  rw [o.nTrailing_eq, (Slot.fill_some ha).1, (Slot.fill_some hb).1, (Slot.fill_some hd).1]
  omega

theorem Operands.fill_eq_none_of_lt {o : Operands} {ws : List Word} (h : ws.length < o.nTrailing) :
    o.fill ws = none := by
  cases hf : o.fill ws with
  | none => rfl
  | some p => have := Operands.fill_length hf; omega

/-! ### Reading an instruction from a stream -/

/-- With a trailing word missing the instruction is not read (R122). -/
theorem decodeWords_of_lt {c : Config} {w : Word} {i : Instr} {ws : List Word}
    (h : decode c w = some i) (hl : ws.length < i.operands.nTrailing) :
    decodeWords c (w :: ws) = .error .trailingPastEnd := by
  simp only [decodeWords, h, Operands.fill_eq_none_of_lt hl]

/-- With its trailing words there an instruction is read, and takes exactly these (R62, R88). -/
theorem decodeWords_of_le {c : Config} {w : Word} {i : Instr} {ws : List Word}
    (h : decode c w = some i) (hl : i.operands.nTrailing ≤ ws.length) :
    ∃ j, decodeWords c (w :: ws) = .ok (j, ws.drop i.operands.nTrailing) ∧
      j.length = 1 + i.operands.nTrailing := by
  obtain ⟨o, hf, hs⟩ := Operands.fill_of_le hl
  refine ⟨_, decodeWords_of_decode h hf, ?_⟩
  rw [Instr.length, Instr.ofRecord_operands, Operands.nTrailing_congr hs]

/-! ### The default digits -/

theorem Config.default_mapsOk : Config.default.OpcodeMapOk ∧ Config.default.DigitMapOk := by decide

/-- The large immediates have the default digits 2, 5 and 8 (R53). -/
theorem hasKind_lconst_of_default_digit {d : Nat} {t : SlotState}
    (h : Config.default.digitMap[d]? = some t) :
    SlotState.hasKind .lconst t = (d == 2 || d == 5 || d == 8) := by
  have hlt : d < 10 := (List.getElem?_eq_some_iff.mp h).1
  have table : ∀ k < 10, Config.default.digitMap[k]?.map (SlotState.hasKind .lconst) =
      some (k == 2 || k == 5 || k == 8) := by decide
  simpa [h] using table d hlt

/-- The large immediates among three states, counted on their default digits. -/
theorem countKind_lconst_of_default_digits {d0 d1 d2 : Nat} {t0 t1 t2 : SlotState}
    (h0 : Config.default.digitMap[d0]? = some t0) (h1 : Config.default.digitMap[d1]? = some t1)
    (h2 : Config.default.digitMap[d2]? = some t2) :
    countKind .lconst [t0, t1, t2] =
      [d0, d1, d2].countP (fun d => d == 2 || d == 5 || d == 8) := by
  simp only [countKind, List.countP_cons, List.countP_nil, hasKind_lconst_of_default_digit h0,
    hasKind_lconst_of_default_digit h1, hasKind_lconst_of_default_digit h2]

/-- Settles O6: a word with such a descriptor decodes to slots whose states are its digits, and reading
takes one word for each of them that is a large immediate. -/
theorem lengthFromTheDescriptorDigits : Obligations.LengthFromTheDescriptorDigits := by
  intro w ws desc n hdesc
  obtain ⟨ho, hd⟩ := Config.default_mapsOk
  obtain ⟨i, t0, t1, t2, hi, hs, h0, h1, h2⟩ := decode_of_desc_lt ho hd hdesc
  have hn : i.operands.nTrailing = n := by
    rw [Operands.nTrailing, hs]
    exact countKind_lconst_of_default_digits h0 h1 h2
  rw [← hn]
  exact ⟨decodeWords_of_lt hi, decodeWords_of_le hi⟩

end Sys2Proof
end

section
/-! PROOFS. The round trip of the codec on the record side (40_codec.md R105): each field of an encoded
word is read back, and in the payload field each slot stands at its cursor. -/

namespace Sys2Proof

/-! ### The fields of an instruction word -/

/-- The opcode, the descriptor and the payload are read back from the number they form (R51). -/
theorem bits_fields {op d p : Nat} (hop : op < 2 ^ 5) (hd : d < 2 ^ 10) (hp : p < 2 ^ 17) :
    let v := (BitVec.ofNat 32 (op * 2 ^ 27 + d * 2 ^ 17 + p)).toNat
    bits v 27 5 = op ∧ bits v 17 10 = d ∧ bits v 0 17 = p := by
  simp only [BitVec.toNat_ofNat, bits]
  omega

theorem Config.DigitMapOk.desc_lt {c : Config} (h : c.DigitMapOk) (o : Operands) :
    c.desc o < 1000 := by
  have h0 := h.digit_lt o.s0.state
  have h1 := h.digit_lt o.s1.state
  have h2 := h.digit_lt o.s2.state
  unfold Config.desc
  omega

/-- The decimal digits of a descriptor are the digits of the three states (R52). -/
theorem Config.DigitMapOk.digits_of_desc {c : Config} (h : c.DigitMapOk) (o : Operands) :
    c.desc o / 100 = c.digit o.s0.state ∧ c.desc o / 10 % 10 = c.digit o.s1.state ∧
      c.desc o % 10 = c.digit o.s2.state := by
  have h1 := h.digit_lt o.s1.state
  have h2 := h.digit_lt o.s2.state
  unfold Config.desc
  omega

/-! ### The payload of a record -/

/-- A slot's payload fits the bits that the slot takes. -/
theorem Slot.payload_lt (w : Nat) (x : Slot) : x.payload w < 2 ^ x.state.payloadBits w := by
  cases x with
  | sconst _ v => exact trunc_lt w v
  | reg _ i => exact i.isLt
  | _ => exact Nat.one_pos

theorem Operands.payload_lt (o : Operands) : o.payload < 2 ^ 17 :=
  pack_lt (payloadBits_sum_le _ _ _) (o.s0.payload_lt _) (o.s1.payload_lt _) (o.s2.payload_lt _)

/-- A slot whose value fits comes back, as a placeholder, from a cursor at which its payload stands. -/
theorem unpackSlot_eq_placeholder {w p k : Nat} {x : Slot} (hf : x.fitsWidth w = true)
    (hp : bits p k (x.state.payloadBits w) = x.payload w) :
    unpackSlot w p k x.state = x.placeholder := by
  cases x with
  | sconst l v =>
    have hv : sext w (bits p k w) = v := (congrArg (sext w) hp).trans (beq_iff_eq.mp hf)
    exact congrArg (Slot.sconst l) hv
  | reg l i =>
    have hi : Fin.ofNat 8 (bits p k 3) = i :=
      (congrArg (Fin.ofNat 8) hp).trans (Fin.ofNat_val_eq_self i)
    exact congrArg (Slot.reg l) hi
  | _ => rfl

/-- Unpacking the payload field of three slots that fit gives their placeholders (R54, R86). -/
theorem unpackOperands_payload {o : Operands} (h : ∀ x ∈ o.toList, x.fitsWidth o.width = true) :
    unpackOperands o.payload o.s0.state o.s1.state o.s2.state = o.placeholder := by
  obtain ⟨r0, r1, r2⟩ := bits_pack (payloadBits_sum_le o.s0.state o.s1.state o.s2.state)
    (o.s0.payload_lt _) (o.s1.payload_lt _) (o.s2.payload_lt _)
  have e0 := unpackSlot_eq_placeholder (h o.s0 (by simp [Operands.toList])) r0
  have e1 := unpackSlot_eq_placeholder (h o.s1 (by simp [Operands.toList])) r1
  have e2 := unpackSlot_eq_placeholder (h o.s2 (by simp [Operands.toList])) r2
  exact congr (congr (congrArg Operands.mk e0) e1) e2

theorem Instr.encodable_iff {i : Instr} :
    i.encodable = true ↔ ∀ x ∈ i.operands.toList, x.fitsWidth i.operands.width = true :=
  List.all_eq_true

/-! ### The round trip -/

/-- The word of an encodable record decodes to the record, large immediates as placeholders (R88). -/
theorem decode_instrWord {c : Config} {i : Instr} (ho : c.OpcodeMapOk) (hd : c.DigitMapOk)
    (h : i.encodable = true) :
    decode c (instrWord c i) = some (Instr.ofRecord i.opcode i.operands.placeholder) := by
  have hdesc := hd.desc_lt i.operands
  obtain ⟨d0, d1, d2⟩ := hd.digits_of_desc i.operands
  obtain ⟨bop, bdesc, bpay⟩ := bits_fields (ho.number_lt i.opcode) (hdesc.trans (by decide))
    i.operands.payload_lt
  simp only [decode, instrWord, bop, bdesc, bpay, if_neg (Nat.not_le.mpr hdesc), d0, d1, d2,
    ho.get_number, hd.get_digit, unpackOperands_payload (Instr.encodable_iff.mp h)]

/-- Settles O1: the word decodes to the record with placeholders, and the trailing words fill them. -/
theorem decodeOfEncodeIsTheRecord : Obligations.DecodeOfEncodeIsTheRecord := by
  intro c i ho hd h
  refine ⟨instrWord c i, i.operands.trailing, if_pos h, i.operands.trailing_length, fun rest => ?_⟩
  have hread := decodeWords_of_decode (ws := i.operands.trailing ++ rest)
    (decode_instrWord ho hd h) (by
      rw [Instr.ofRecord_operands]; exact i.operands.fill_placeholder rest)
  rwa [Instr.ofRecord_opcode, Instr.ofRecord_self] at hread

end Sys2Proof
end

section
/-! PROOFS. The derived width (30_encoding.md R55) is the largest that leaves room for the registers
(40_codec.md R107). -/

namespace Sys2Proof

/-- No slot counts both as a small immediate and as a register. -/
theorem countKind_sconst_add_reg_le (ts : List SlotState) :
    countKind .sconst ts + countKind .reg ts ≤ ts.length := by
  have hr : countKind .reg ts ≤ ts.countP (fun t => ¬ SlotState.hasKind .sconst t) :=
    List.countP_mono_left fun t _ ht => by
      cases t with
      | absent => cases ht
      | present k l =>
        cases k with
        | reg => rfl
        | _ => cases ht
  rw [List.length_eq_countP_add_countP (SlotState.hasKind .sconst)]
  exact Nat.add_le_add_left hr _

theorem derivedWidth_eq_some {ts : List SlotState} (h : 1 ≤ countKind .sconst ts) :
    derivedWidth ts = some ((17 - 3 * countKind .reg ts) / countKind .sconst ts) :=
  if_neg (Nat.pos_iff_ne_zero.mp h)

/-- Settles O4: beside a small immediate there are at most two registers, so `17 - 3*R` does not cut
off, and the quotient by `S` is the largest width by its own property. -/
theorem derivedWidthIsTheLargestFairWidth : Obligations.DerivedWidthIsTheLargestFairWidth := by
  intro t0 t1 t2 h
  have hsum := countKind_sconst_add_reg_le [t0, t1, t2]
  refine ⟨_, derivedWidth_eq_some h, fun _ => rfl, fun _ => rfl, ?_, fun v hv => ?_⟩
  · have hmul := Nat.mul_div_le (17 - 3 * countKind .reg [t0, t1, t2])
      (countKind .sconst [t0, t1, t2])
    simp only [List.length_cons, List.length_nil] at hsum
    omega
  · rw [Nat.le_div_iff_mul_le h, Nat.mul_comm]
    omega

end Sys2Proof
end

section
/-! PROOFS. The operand policies (40_codec.md R95, R100, R101, R103) read on the slots themselves. -/

namespace Sys2Proof

theorem Slot.isPresent_state_eq_false {x : Slot} : x.state.isPresent = false ↔ x = .absent := by
  cases x <;> simp [Slot.state, SlotState.isPresent]

theorem Slot.isImm_state_eq_false {x : Slot} :
    x.state.isImm = false ↔ (∀ v, x ≠ .sconst .direct v) ∧ ∀ v, x ≠ .lconst .direct v := by
  cases x with
  | sconst l v => cases l <;> simp [Slot.state, SlotState.isImm]
  | lconst l v => cases l <;> simp [Slot.state, SlotState.isImm]
  | _ => simp [Slot.state, SlotState.isImm]

/-- A writable slot is present and holds no constant in the direct location (R89). -/
theorem Slot.isWritable_state {x : Slot} :
    x.state.isWritable = true ↔
      x ≠ .absent ∧ (∀ v, x ≠ .sconst .direct v) ∧ ∀ v, x ≠ .lconst .direct v := by
  rw [SlotState.isWritable, Bool.and_eq_true, Bool.not_eq_true', Slot.isImm_state_eq_false,
    ← Bool.not_eq_false, Ne, Slot.isPresent_state_eq_false]

/-- NONE (R95): all three slots absent. -/
theorem Policy.none_accepts {o : Operands} :
    Policy.none.accepts o.s0.state o.s1.state o.s2.state = true ↔
      o = ⟨.absent, .absent, .absent⟩ := by
  obtain ⟨x0, x1, x2⟩ := o
  simp only [Policy.accepts, Bool.and_eq_true, Bool.not_eq_true', Slot.isPresent_state_eq_false,
    Operands.mk.injEq, and_assoc]

/-- POP (R100): a writable slot 0 alone. -/
theorem Policy.pop_accepts {o : Operands} :
    Policy.pop.accepts o.s0.state o.s1.state o.s2.state = true ↔
      o.s0.state.isWritable = true ∧ o.s1 = .absent ∧ o.s2 = .absent := by
  simp only [Policy.accepts, Bool.and_eq_true, Bool.not_eq_true', Slot.isPresent_state_eq_false,
    and_assoc]

/-- SWAP (R101): writable slots 0 and 1 and no slot 2. -/
theorem Policy.swap_accepts {o : Operands} :
    Policy.swap.accepts o.s0.state o.s1.state o.s2.state = true ↔
      o.s0.state.isWritable = true ∧ o.s1.state.isWritable = true ∧ o.s2 = .absent := by
  simp only [Policy.accepts, Bool.and_eq_true, Bool.not_eq_true', Slot.isPresent_state_eq_false,
    and_assoc]

/-- Settles O8: `validate` is the policy of the opcode, and each policy is read on the slots. -/
theorem policiesNonePopSwapInvalid : Obligations.PoliciesNonePopSwapInvalid := by
  intro o
  refine ⟨Policy.none_accepts, Policy.none_accepts, Policy.none_accepts,
    Policy.pop_accepts.trans (and_congr_left' Slot.isWritable_state),
    Policy.swap_accepts.trans
      (and_congr Slot.isWritable_state (and_congr_left' Slot.isWritable_state)), ?_⟩
  simp only [List.forall_mem_cons]
  exact ⟨rfl, rfl, rfl, rfl, rfl, fun _ hi => absurd hi List.not_mem_nil⟩

end Sys2Proof
end

section
/-! PROOFS. The stages of a step in their order (41_step_and_operands.md R121 to R125): the fetch with
its faults, the landing check, validation; and the resolution of a slot within its limit. -/

namespace Sys2Proof.Machine

variable {i : Instr} {s : State}

/-! ### Stages 1 and 2 -/

/-- A running core whose fetch fails raises the fetch's fault, whatever `J` is (R121, R122). -/
theorem step_of_decodeWords_error {e : DecodeError} (hr : s.status = .running)
    (h : decodeWords s.cfg (s.prog.drop s.pc.toNat) = .error e) :
    step s = .next (s.raise (decodeCause e)) := by
  simp only [step, hr, State.fetch, h, finish_raise]

/-- A running core runs the instruction it fetches (R133). -/
theorem step_of_decodeWords_ok {rest : List Word} (hr : s.status = .running)
    (h : decodeWords s.cfg (s.prog.drop s.pc.toNat) = .ok (i, rest)) : step s = exec i s := by
  simp only [step, hr, State.fetch, h]

/-! ### Stages 3 and 4 -/

/-- `entry` takes the landing and goes on, valid or not (R123, R190). -/
theorem exec_of_entry (s : State) (h : i.opcode = .entry) :
    exec i s = .next ((s.setJ false).setPc (s.npc i)) := by
  cases i with
  | entry o => exact exec_entry o s
  | _ => cases h

/-- Nothing but `entry` may be landed on (R123, R204). -/
theorem exec_of_landing (h : i.opcode ≠ .entry) (hj : s.j = true) :
    exec i s = .next (s.raise .badLanding) := by
  rw [exec_eq i s h, execute_eq, if_pos hj]

/-- With no landing due, an invalid record faults at stage 4, ahead of its operands (R124). -/
theorem exec_of_invalid (h : i.opcode ≠ .entry) (hj : s.j = false) (hv : i.validate = false) :
    exec i s = .next (s.raise .invalidInstruction) := by
  rw [exec_eq i s h, execute_eq, if_neg (Bool.eq_false_iff.mp hj), if_neg (Bool.eq_false_iff.mp hv)]

/-! ### Stage 5 -/

/-- A slot located within its limit resolves to its location (R125). -/
theorem State.resolve_of_inLimit {x : Slot} {l : Loc} (hx : s.locate x = some l)
    (hl : s.inLimit l = true) : s.resolve x = .ok (some l) := by
  simp only [State.resolve, hx, if_pos hl]

end Sys2Proof.Machine

namespace Sys2Proof

open Machine

/-- Settles O24: the fetch decides between its three faults and an instruction; of an instruction the
opcode decides, `entry` clearing `J` and any other faulting on it. -/
theorem landingCheck : Obligations.LandingCheck := by
  intro s hr
  refine ⟨step_of_decodeWords_error hr, step_of_decodeWords_error hr, step_of_decodeWords_error hr,
    fun i rest hd => ?_⟩
  rw [step_of_decodeWords_ok hr hd]
  refine ⟨fun he => ?_, exec_of_landing⟩
  rw [exec_of_entry s he, State.npc_eq]
  rfl

/-- Settles O14: the direct location names a register or an immediate, and neither has a limit. -/
theorem directSlotsResolveWithoutFault : Obligations.DirectSlotsResolveWithoutFault :=
  fun _ _ _ => ⟨State.resolve_of_inLimit rfl rfl, State.resolve_of_inLimit rfl rfl,
    State.resolve_of_inLimit rfl rfl⟩

/-- Settles O25: validation comes before the operands are resolved, and its fault leaves all but `status`
as it was. -/
theorem invalidInstructionFaults : Obligations.InvalidInstructionFaults :=
  fun _ _ => exec_of_invalid

end Sys2Proof
end

section
/-! PROOFS. The binary instructions whose function raises nothing (42_arithmetic.md R150): one lemma says
what they do, and the function of each is then read as the spec states it (R140, R144 to R146). -/

namespace Sys2Proof.Machine

variable {i : Instr} {s : State} {f : Word → Word → Word}

/-! ### The functions -/

/-- `f` of `add` is the sum of the two numbers modulo 2^32 (R140). -/
theorem aluAdd_eq_ofNat (a b : Word) :
    aluAdd a b = BitVec.ofNat 32 ((a.toNat + b.toNat) % 2 ^ 32) := by
  apply BitVec.eq_of_toNat_eq
  rw [aluAdd, BitVec.toNat_add, BitVec.toNat_ofNat, Nat.mod_mod]

theorem aluOr_getLsbD (a b : Word) (k : Nat) :
    (aluOr a b).getLsbD k = (a.getLsbD k || b.getLsbD k) := BitVec.getLsbD_or

theorem aluAnd_getLsbD (a b : Word) (k : Nat) :
    (aluAnd a b).getLsbD k = (a.getLsbD k && b.getLsbD k) := BitVec.getLsbD_and

theorem aluXor_getLsbD (a b : Word) (k : Nat) :
    (aluXor a b).getLsbD k = (a.getLsbD k ^^ b.getLsbD k) := BitVec.getLsbD_xor

/-! ### The common rule -/

/-- A binary instruction that passes the stages before its rule reads both sources, stores the result
in slot 2's place or else in slot 0's, and goes past itself (R150). -/
theorem State.Executes.exec_binary (he : s.Executes i) (hp : i.opcode.policy = .arith)
    (hr : rule i s = binaryBody (fun a b => .ok (f a b)) (s.npc i) s) :
    ∃ l0 l1 t, s.locate i.operands.s0 = some l0 ∧ s.locate i.operands.s1 = some l1 ∧
      s.write ((s.locate i.operands.s2).getD l0) (f (s.read l0) (s.read l1)) = .ok t ∧
      exec i s = .next (t.setPc (s.pc + 1 + BitVec.ofNat 32 i.operands.nTrailing)) := by
  have hn : i.opcode ≠ .entry := fun h => by rw [h] at hp; cases hp
  have hv := he.valid
  rw [Instr.validate, hp] at hv
  obtain ⟨l0, l1, e0, e1, hw⟩ := locate_of_arith (s := s) hv
  obtain ⟨t, ht⟩ := s.write_ok hw (f (s.read l0) (s.read l1))
  refine ⟨l0, l1, t, e0, e1, ht, ?_⟩
  calc exec i s
    _ = finish s (binaryBody (fun a b => .ok (f a b)) (s.npc i) s (s.locateAll i.operands)) := by
      rw [exec_eq i s hn, execute_of_executes he, hr]
    _ = finish s (s.write ((s.locate i.operands.s2).getD l0) (f (s.read l0) (s.read l1)) >>=
          fun t => .ok (t.setPc (s.npc i))) := by
      rw [binaryBody_eq (locs := s.locateAll i.operands) _ e0 e1, ok_bind]; rfl
    _ = .next (t.setPc (s.pc + 1 + BitVec.ofNat 32 i.operands.nTrailing)) := by
      rw [ht, ok_bind, finish_ok, State.npc_eq]

/-- A binary instruction whose function works bit by bit stores such a word. -/
theorem State.Executes.exec_bitwise (he : s.Executes i) (hp : i.opcode.policy = .arith)
    (hr : rule i s = binaryBody (fun a b => .ok (f a b)) (s.npc i) s) {g : Bool → Bool → Bool}
    (hf : ∀ a b k, (f a b).getLsbD k = g (a.getLsbD k) (b.getLsbD k)) :
    ∃ l0 l1 r t, s.locate i.operands.s0 = some l0 ∧ s.locate i.operands.s1 = some l1 ∧
      (∀ k, k < 32 → r.getLsbD k = g ((s.read l0).getLsbD k) ((s.read l1).getLsbD k)) ∧
      s.write ((s.locate i.operands.s2).getD l0) r = .ok t ∧
      exec i s = .next (t.setPc (s.pc + 1 + BitVec.ofNat 32 i.operands.nTrailing)) := by
  obtain ⟨l0, l1, t, e0, e1, ht, hx⟩ := he.exec_binary hp hr
  exact ⟨l0, l1, _, t, e0, e1, fun k _ => hf _ _ k, ht, hx⟩

end Sys2Proof.Machine

namespace Sys2Proof

open Machine

/-- Settles O37: `add` is a binary instruction, and its function is the sum modulo 2^32. -/
theorem addStoresTheSum : Obligations.AddStoresTheSum := by
  intro o s he
  obtain ⟨l0, l1, t, e0, e1, ht, hx⟩ := he.exec_binary (f := aluAdd) rfl rfl
  rw [aluAdd_eq_ofNat] at ht
  exact ⟨l0, l1, t, e0, e1, ht, hx⟩

/-- Settles O40: `or`, `and` and `xor` are binary instructions, and the function of each works bit by
bit. -/
theorem orAndXorWorkBitByBit : Obligations.OrAndXorWorkBitByBit := by
  simp only [Obligations.OrAndXorWorkBitByBit, List.forall_mem_cons]
  refine ⟨?_, ?_, ?_, fun _ hp => absurd hp List.not_mem_nil⟩
  · exact fun o s he => he.exec_bitwise rfl rfl aluOr_getLsbD
  · exact fun o s he => he.exec_bitwise rfl rfl aluAnd_getLsbD
  · exact fun o s he => he.exec_bitwise rfl rfl aluXor_getLsbD

end Sys2Proof
end

section
/-! PROOFS. Compare and jump (43_compare_and_jump.md R160, R161, R170): the flags as functions of the two
operands, and what `cmp` and an operand-relative jump do once they pass the stages before their rule. -/

namespace Sys2Proof.Machine

variable {i : Instr} {s : State}

/-! ### The flags of `cmp` -/

theorem cmpZ_eq_decide (a b : Word) : cmpZ a b = decide (a.toNat = b.toNat) := by
  rw [cmpZ, beq_eq_decide, decide_eq_decide, BitVec.toNat_inj]

/-- The top bit of the wrapped difference, read off the two numbers. -/
theorem cmpN_eq_decide (a b : Word) :
    cmpN a b = decide ((a.toNat + 2 ^ 32 - b.toNat) % 2 ^ 32 ≥ 2 ^ 31) := by
  have hb := b.isLt
  have hd : (a - b).toNat = (a.toNat + 2 ^ 32 - b.toNat) % 2 ^ 32 := by
    rw [BitVec.toNat_sub]
    congr 1
    omega
  rw [cmpN, BitVec.msb_eq_decide, hd]

/-! ### The common rules -/

/-- `cmp` that passes the stages before its rule sets both flags from its operands and goes past itself
(R160). -/
theorem State.Executes.exec_cmp {o : Operands} (he : s.Executes (.cmp o)) :
    ∃ l0 l1, s.locate o.s0 = some l0 ∧ s.locate o.s1 = some l1 ∧
      exec (.cmp o) s = .next ((s.setFlags (cmpZ (s.read l0) (s.read l1))
        (cmpN (s.read l0) (s.read l1))).setPc (s.pc + 1 + BitVec.ofNat 32 o.nTrailing)) := by
  obtain ⟨l0, l1, e0, e1⟩ := locate_of_cmp (s := s) (o := o) he.valid
  refine ⟨l0, l1, e0, e1, ?_⟩
  calc exec (.cmp o) s
    _ = finish s (cmpBody (s.npc (.cmp o)) s (s.locateAll o)) := by
      rw [exec_eq (.cmp o) s nofun, execute_of_executes he]; rfl
    _ = .next ((s.setFlags (cmpZ (s.read l0) (s.read l1))
          (cmpN (s.read l0) (s.read l1))).setPc (s.pc + 1 + BitVec.ofNat 32 o.nTrailing)) := by
      rw [cmpBody_eq (locs := s.locateAll o) e0 e1, finish_ok, State.npc_eq]; rfl

/-- A jump that passes the stages before its rule goes to its own address plus the operand with a landing
due when its condition holds, and past itself when not (R170). -/
theorem State.Executes.exec_jump {cond : Bool → Bool → Bool} (he : s.Executes i)
    (hp : i.opcode.policy = .oneAny) (hr : rule i s = jumpBody cond (s.npc i) s) :
    ∃ l0, s.locate i.operands.s0 = some l0 ∧
      exec i s = .next (if cond s.z s.n then (s.setPc (s.pc + s.read l0)).setJ true
        else s.setPc (s.pc + 1 + BitVec.ofNat 32 i.operands.nTrailing)) := by
  have hn : i.opcode ≠ .entry := fun h => by rw [h] at hp; cases hp
  have hv := he.valid
  rw [Instr.validate, hp] at hv
  obtain ⟨l0, e0⟩ := locate_of_oneAny (s := s) hv
  refine ⟨l0, e0, ?_⟩
  rw [exec_eq i s hn, execute_of_executes he, hr, jumpBody_eq (locs := s.locateAll i.operands) cond e0,
    State.npc_eq]
  split <;> rfl

end Sys2Proof.Machine

namespace Sys2Proof

open Machine

/-- Settles O43: the rule of `cmp`, with the flags read as facts about the two numbers. -/
theorem cmpSetsBothFlags : Obligations.CmpSetsBothFlags := by
  intro o s he
  obtain ⟨l0, l1, e0, e1, hx⟩ := he.exec_cmp
  rw [cmpZ_eq_decide, cmpN_eq_decide] at hx
  exact ⟨l0, l1, e0, e1, hx⟩

/-- Settles O44: `jmp` is the jump whose condition always holds, and its target is the sum `add` computes,
of `pc` and the operand. -/
theorem jmpIsRelativeToItsOwnAddress : Obligations.JmpIsRelativeToItsOwnAddress := by
  intro o s he
  obtain ⟨l0, e0, hx⟩ := he.exec_jump (cond := condJmp) rfl rfl
  refine ⟨l0, e0, ?_⟩
  rw [← aluAdd_eq_ofNat]
  exact hx

end Sys2Proof
end

section
/-! PROOFS. `swap` (44_stack_and_heap.md R182): what a place reads after a write to it and to another
place (R130, R131), what two such writes of each other's contents do, and the rule of `swap`. -/

namespace Sys2Proof.Machine

variable {s t u : State} {l l0 l1 : Loc} {v : Word}

/-! ### Reading after writing -/

@[simp] theorem State.setPc_read (s : State) (v : Word) (l : Loc) : (s.setPc v).read l = s.read l := by
  cases l <;> rfl

/-- Reading back what was written; the canonical form of the two memories is what makes it so. -/
theorem State.Inv.read_write_self (hi : s.Inv) (h : s.write l v = .ok t) : t.read l = v := by
  rcases State.write_cases h with ⟨i, rfl, rfl⟩ | ⟨a, rfl, rfl⟩ | ⟨a, rfl, rfl⟩
  · exact State.setReg_reg_self s i v
  · exact Memory.read_write hi.stackWf a v
  · exact Memory.read_write hi.heapWf a v

/-- A write leaves every other place alone. -/
theorem State.read_write_ne (h : s.write l0 v = .ok t) (hl : l ≠ l0) : t.read l = s.read l := by
  cases l with
  | imm w => rfl
  | reg r => exact State.write_reg h hl
  | stackCell a => exact State.write_stackCell h hl
  | heapCell a => exact State.write_heapCell h hl

/-! ### Writing each other's contents -/

/-- After both writes the first place holds what the second did, also when the two are the same. -/
theorem State.Inv.read_left_of_exchange (hi : s.Inv) (hi' : t.Inv)
    (hw0 : s.write l0 (s.read l1) = .ok t) (hw1 : t.write l1 (s.read l0) = .ok u) :
    u.read l0 = s.read l1 := by
  by_cases h : l0 = l1
  · subst h; exact hi'.read_write_self hw1
  · rw [State.read_write_ne hw1 h, hi.read_write_self hw0]

/-- Two writes leave every field but the register file and the two memories alone. -/
theorem State.write_write_other {v' : Word} (hw0 : s.write l0 v = .ok t)
    (hw1 : t.write l1 v' = .ok u) :
    u.cfg = s.cfg ∧ u.prog = s.prog ∧ u.sp = s.sp ∧ u.hwm = s.hwm ∧ u.z = s.z ∧ u.n = s.n ∧
      u.j = s.j ∧ u.status = s.status := by
  obtain ⟨hcfg, hprog, -, hsp, hhwm, hz, hn, hj, hst⟩ := State.write_other hw1
  rw [hcfg, hprog, hsp, hhwm, hz, hn, hj, hst]
  obtain ⟨hcfg, hprog, -, hsp, hhwm, hz, hn, hj, hst⟩ := State.write_other hw0
  exact ⟨hcfg, hprog, hsp, hhwm, hz, hn, hj, hst⟩

/-! ### The rule of `swap` -/

/-- A `swap` that passes the stages before its rule writes each place's old contents to the other and
goes past itself (R182). -/
theorem State.Executes.exec_swap {o : Operands} (he : s.Executes (.swap o)) :
    ∃ l0 l1 t u, s.locate o.s0 = some l0 ∧ s.locate o.s1 = some l1 ∧
      s.write l0 (s.read l1) = .ok t ∧ t.write l1 (s.read l0) = .ok u ∧
      exec (.swap o) s = .next (u.setPc (s.pc + 1 + BitVec.ofNat 32 o.nTrailing)) := by
  obtain ⟨l0, l1, e0, e1, w0, w1⟩ := locate_of_swap (s := s) (o := o) he.valid
  obtain ⟨t, hw0⟩ := s.write_ok w0 (s.read l1)
  obtain ⟨u, hw1⟩ := t.write_ok w1 (s.read l0)
  refine ⟨l0, l1, t, u, e0, e1, hw0, hw1, ?_⟩
  calc exec (.swap o) s
    _ = finish s (swapBody (s.npc (.swap o)) s (s.locateAll o)) := by
      rw [exec_eq (.swap o) s nofun, execute_of_executes he]; rfl
    _ = .next (u.setPc (s.pc + 1 + BitVec.ofNat 32 o.nTrailing)) := by
      rw [swapBody_eq (locs := s.locateAll o) e0 e1, hw0, ok_bind, hw1, ok_bind, finish_ok,
        State.npc_eq]; rfl

end Sys2Proof.Machine

namespace Sys2Proof

open Machine

/-- Settles O51: `swap` writes to each place what the other held; the second write is read back because
the first, below its limit, keeps the invariant. -/
theorem swapExchangesTwoPlaces : Obligations.SwapExchangesTwoPlaces := by
  intro o s hi he
  obtain ⟨l0, l1, t, u, e0, e1, hw0, hw1, hx⟩ := he.exec_swap
  have hother := State.write_write_other hw0 hw1
  have hit : t.Inv := hi.write (he.inLimit List.mem_cons_self e0) hw0
  refine ⟨l0, l1, _, e0, e1, hx, ?_, ?_, fun l h0 h1 => ?_, rfl, hother⟩
  · rw [State.setPc_read, hi.read_left_of_exchange hit hw0 hw1]
  · rw [State.setPc_read, hit.read_write_self hw1]
  · rw [State.setPc_read, State.read_write_ne hw1 h1, State.read_write_ne hw0 h0]

end Sys2Proof
end

section
/-! PROOF. The rule of `entry` (45_system.md R190). -/

namespace Sys2Proof

open Machine

/-- Settles O55: `entry` only clears `J` and moves `pc` by its own length, one word and the trailing
words its slots ask for. No stage before it looks at the operands or at `J`. -/
theorem entryOnlyClearsJ : Obligations.EntryOnlyClearsJ := by
  intro o s
  calc exec (.entry o) s
    _ = .next ((s.setJ false).setPc (s.npc (.entry o))) := exec_entry o s
    _ = .next ((s.setJ false).setPc (s.pc + 1 + BitVec.ofNat 32 o.nTrailing)) := by
      rw [State.npc_eq]; rfl
    _ = .next { s with j := false, pc := s.pc + 1 + BitVec.ofNat 32 o.nTrailing } := rfl

end Sys2Proof
end

section
/-! PROOFS. The faults of a fetch that runs past the end of the program (60_exceptions.md R201, R203). -/

namespace Sys2Proof.Machine

variable {s : State}

/-- At or past the end of the program there is no instruction word to read (R121). -/
theorem State.decodeWords_of_progLen_le (h : s.progLen ≤ s.pc.toNat) :
    decodeWords s.cfg (s.prog.drop s.pc.toNat) = .error .pastEnd := by
  rw [List.drop_of_length_le h, decodeWords]

/-- With fewer words left than the word at `pc` asks for, the fetch ends past the program (R122). -/
theorem State.decodeWords_of_progLen_lt {w : Word} {i : Instr} (hw : s.prog[s.pc.toNat]? = some w)
    (hd : decode s.cfg w = some i) (h : s.progLen < s.pc.toNat + 1 + i.operands.nTrailing) :
    decodeWords s.cfg (s.prog.drop s.pc.toNat) = .error .trailingPastEnd := by
  obtain ⟨hlt, rfl⟩ := List.getElem?_eq_some_iff.mp hw
  have hleft : (s.prog.drop (s.pc.toNat + 1)).length < i.operands.nTrailing := by
    rw [List.length_drop]
    have : s.prog.length < s.pc.toNat + 1 + i.operands.nTrailing := h
    omega
  rw [List.drop_eq_getElem_cons hlt]
  exact decodeWords_of_lt hd hleft

end Sys2Proof.Machine

namespace Sys2Proof

open Machine

/-- Settles O23: the fetch pulls the trailing words before any other check, so its fault is the step's,
whatever the opcode and `J` are. -/
theorem trailingPastEndFaults : Obligations.TrailingPastEndFaults :=
  fun _ _ _ hr hw hd h => step_of_decodeWords_error hr (State.decodeWords_of_progLen_lt hw hd h)

/-- Settles O21: the fetch finds no word at `pc`, and its fault is the step's. -/
theorem fetchPastEndFaults : Obligations.FetchPastEndFaults :=
  fun _ hr h => step_of_decodeWords_error hr (State.decodeWords_of_progLen_le h)

end Sys2Proof
end

section
/-! PROOFS. The invariant of Sys2Proof/Safety.lean holds after reset and every step keeps it: each effect
of Laws/Exec.lean is a sequence of named updates that keep it, and the faults agree with `J`. -/

namespace Sys2Proof.Machine

variable {i : Instr} {s t : State}

/-! ### What the invariant needs of the single effects -/

/-- `cmp` never leaves `Z = 1` with `N = 1`: the difference of equal words is 0 (R160). -/
theorem cmpN_of_cmpZ {a b : Word} (h : cmpZ a b = true) : cmpN a b = false := by
  rw [cmpZ, beq_iff_eq] at h
  rw [h, cmpN, BitVec.sub_self, BitVec.msb_zero]

/-- A halt with no landing due. -/
theorem State.Inv.halt (hi : s.Inv) (hj : s.j = false) : (s.setStatus .halted).Inv :=
  { hi with
    haltedJ := fun _ => hj
    faultedJ := nofun
    badLandingJ := nofun }

/-- A word written to the first free stack cell, below the limit, with `sp` raised (R168, R180). -/
theorem State.Inv.push (hi : s.Inv) (hs : s.sp.toNat < s.cfg.stackLimit) (v : Word) :
    ((s.setStackCell s.sp.toNat v).setSp (s.sp + 1)).Inv := by
  have hw : (s.setStackCell s.sp.toNat v).Inv :=
    hi.write (l := .stackCell s.sp.toNat) (decide_eq_true hs) rfl
  refine hw.setSp ?_
  rw [hi.toNat_sp_add hs]
  exact hs

/-- `sp` lowered on a stack that is not empty (R169, R181). -/
theorem State.Inv.pop (hi : s.Inv) (hs : s.sp ≠ 0) : (s.setSp (s.sp - 1)).Inv :=
  hi.setSp (by rw [top_index hs]; exact (Nat.sub_le _ _).trans hi.spLimit)

/-- A fault of an instruction is BadLanding exactly when a landing is due (R123, R204). -/
theorem exec_raise_iff {c : Cause} (hr : s.status = .running) (h : exec i s = .next (s.raise c)) :
    c = .badLanding ↔ s.j = true := by
  refine ⟨fun hc => exec_badLanding hr h (congrArg Status.faulted hc), fun hj => ?_⟩
  by_cases hn : i.opcode = .entry
  · rw [exec_of_entry s hn, Host.Outcome.next.injEq] at h
    have hst := congrArg State.status h
    simp [hr] at hst
  · rw [exec_of_landing hn hj, Host.Outcome.next.injEq] at h
    exact (Status.faulted.inj (congrArg State.status h)).symm

/-! ### Instructions and steps -/

/-- Every instruction of a running core keeps the invariant. -/
theorem State.Inv.exec (hi : s.Inv) (hr : s.status = .running) (h : Machine.exec i s = .next t) :
    t.Inv := by
  cases exec_effect h with
  | raised c =>
    have hc := exec_raise_iff hr h
    exact hi.raise (fun hj => .inr (.inr (.inr (hc.mpr hj)))) hc.mp
  | landed => exact (hi.setJ hr false).setPc _
  | stored _ _ _ _ _ hl hw => exact (hi.write hl hw).setPc _
  | compared => exact (hi.setFlags cmpN_of_cmpZ).setPc _
  | jumped _ _ v => exact (hi.setPc (s.pc + v)).setJ hr true
  | notTaken => exact hi.setPc _
  | called _ _ _ hs => exact ((hi.push hs _).setPc _).setJ hr true
  | returned _ _ hs => exact (hi.pop hs).setPc _
  | pushed _ _ _ hs => exact (hi.push hs _).setPc _
  | popped _ _ _ _ hs _ hl hw =>
    exact ((hi.pop hs).write ((State.inLimit_congr rfl _).trans hl) hw).setPc _
  | swapped _ _ _ _ _ _ _ hl0 hl1 hw0 hw1 =>
    obtain ⟨hcfg, -⟩ := State.write_other hw0
    exact ((hi.write hl0 hw0).write ((State.inLimit_congr hcfg _).trans hl1) hw1).setPc _
  | allocated _ _ _ _ _ _ hlim _ hl hw =>
    have hsum := (BitVec.toNat_add s.hwm _).trans_le ((Nat.mod_le _ _).trans hlim)
    exact ((hi.setHwm hsum).write ((State.inLimit_congr rfl _).trans hl) hw).setPc _
  | halted he => exact hi.halt he.notLanding

/-- Every step keeps the invariant; a fetch that fails raises one of the first three faults. -/
theorem State.Inv.step (hi : s.Inv) (h : Machine.step s = .next t) : t.Inv := by
  rcases step_cases h with ⟨-, rfl⟩ | ⟨-, e, -, rfl⟩ | ⟨hr, i, rest, -, hx⟩
  · exact hi
  · refine hi.raise (fun _ => ?_) (fun hc => ?_)
    · cases e <;> simp [decodeCause]
    · cases e <;> cases hc
  · exact hi.exec hr hx

/-- The reset state of every program meets the invariant (R230). -/
theorem State.resetWith_inv {c : Config} {prog : List Word} (hc : c.Ok)
    (hp : prog.length ≤ 2 ^ 32 - 1) : (State.resetWith c prog).Inv where
  cfgOk := hc
  progLen := hp
  spLimit := Nat.zero_le _
  hwmLimit := Nat.zero_le _
  stackWf := rfl
  heapWf := rfl
  stackCells := nofun
  heapCells := nofun
  flags := nofun
  haltedJ := nofun
  faultedJ := nofun
  badLandingJ := nofun

end Sys2Proof.Machine

namespace Sys2Proof

open Machine

/-- Settles O34: a step is a stopped core's, a failed fetch's or an instruction's, and each of them keeps
the invariant. -/
theorem stepKeepsTheInvariant : Obligations.StepKeepsTheInvariant :=
  fun _ _ hi h => hi.step h

/-- Settles O35: the memories are empty, the pointers 0 and the core runs; the default parameters are
among those that R6 allows. -/
theorem resetHasTheInvariant : Obligations.ResetHasTheInvariant :=
  ⟨State.resetWith_inv (by decide) (Nat.zero_le _), fun _ _ => State.resetWith_inv⟩

end Sys2Proof
end

section
/-! PROOFS. The codec on the word side (40_codec.md R106, R108): encoding what a word decodes to gives the
word with its unused payload bits cleared, so `decode` sees exactly the other bits. -/

namespace Sys2Proof

open Machine

variable {c : Config} {w w' : Word} {i : Instr} {o o' : Operands} {x y : Slot} {ws rest : List Word}

/-! ### Inverting `decode` -/

/-- What `decode` does when it gives a record: the four digits have preimages, and the slots are unpacked
from the payload field (R86). -/
theorem decode_eq_some (h : decode c w = some i) :
    ∃ op t0 t1 t2, c.opcodeMap[bits w.toNat 27 5]? = some op ∧
      c.digitMap[bits w.toNat 17 10 / 100]? = some t0 ∧
      c.digitMap[bits w.toNat 17 10 / 10 % 10]? = some t1 ∧
      c.digitMap[bits w.toNat 17 10 % 10]? = some t2 ∧
      i = Instr.ofRecord op (unpackOperands (bits w.toNat 0 17) t0 t1 t2) := by
  simp only [decode] at h
  split at h
  · cases h
  split at h
  · next op t0 t1 t2 hop h0 h1 h2 => exact ⟨op, t0, t1, t2, hop, h0, h1, h2, (Option.some.inj h).symm⟩
  · cases h

/-- A descriptor of 1000 or more has no record (R87). -/
theorem decode_of_desc_ge (h : 1000 ≤ bits w.toNat 17 10) : decode c w = none := if_pos h

/-- `decode` fails exactly on a descriptor of 1000 and more (R87). -/
theorem decode_eq_none_iff (ho : c.OpcodeMapOk) (hd : c.DigitMapOk) :
    decode c w = none ↔ 1000 ≤ bits w.toNat 17 10 := by
  refine ⟨fun h => Nat.not_lt.mp fun hlt => ?_, decode_of_desc_ge⟩
  obtain ⟨i, _, _, _, hi, -⟩ := decode_of_desc_lt ho hd hlt
  rw [h] at hi
  cases hi

/-- Words with the same descriptor decode to slots of the same states (R86). -/
theorem decode_states_congr (hw : bits w'.toNat 17 10 = bits w.toNat 17 10) (ho : c.OpcodeMapOk)
    (hd : c.DigitMapOk) (h : decode c w = some i) :
    ∃ j, decode c w' = some j ∧ j.operands.states = i.operands.states := by
  obtain ⟨_, t0, t1, t2, -, h0, h1, h2, rfl⟩ := decode_eq_some h
  have hlt : bits w.toNat 17 10 < 1000 := Nat.not_le.mp fun hge => by
    rw [decode_of_desc_ge hge] at h; cases h
  obtain ⟨j, u0, u1, u2, hj, hs, k0, k1, k2⟩ := decode_of_desc_lt ho hd (hw ▸ hlt)
  rw [hw] at k0 k1 k2
  cases k0.symm.trans h0
  cases k1.symm.trans h1
  cases k2.symm.trans h2
  exact ⟨j, hj, by rw [hs, Instr.ofRecord_operands, unpackOperands_states]⟩

/-! ### Placeholders -/

@[simp] theorem Slot.placeholder_payload (n : Nat) (x : Slot) :
    x.placeholder.payload n = x.payload n := by
  cases x <;> rfl

@[simp] theorem Slot.placeholder_fitsWidth (n : Nat) (x : Slot) :
    x.placeholder.fitsWidth n = x.fitsWidth n := by
  cases x <;> rfl

theorem Slot.payload_of_placeholder (h : y.placeholder = x.placeholder) (n : Nat) :
    y.payload n = x.payload n := by
  rw [← y.placeholder_payload, h, x.placeholder_payload]

theorem Slot.fitsWidth_of_placeholder (h : y.placeholder = x.placeholder) (n : Nat) :
    y.fitsWidth n = x.fitsWidth n := by
  rw [← y.placeholder_fitsWidth, h, x.placeholder_fitsWidth]

theorem Slot.state_of_placeholder (h : y.placeholder = x.placeholder) : y.state = x.state := by
  rw [← y.placeholder_state, h, x.placeholder_state]

/-- Filling a slot changes a placeholder's value alone, to the word it takes (R88). -/
theorem Slot.fill_eq_some (h : x.fill ws = some (y, rest)) :
    y.placeholder = x.placeholder ∧
      ws = (Operands.trailing { s0 := y }) ++ rest := by
  cases x with
  | lconst l v =>
    cases ws with
    | nil => cases h
    | cons u us => cases h; exact ⟨rfl, rfl⟩
  | _ => cases h; exact ⟨rfl, rfl⟩

theorem Operands.trailing_eq (o : Operands) :
    o.trailing = Operands.trailing { s0 := o.s0 } ++
      (Operands.trailing { s0 := o.s1 } ++ Operands.trailing { s0 := o.s2 }) := by
  obtain ⟨a, b, d⟩ := o
  cases a <;> cases b <;> cases d <;> rfl

/-- Filling three slots keeps the placeholders, and the words taken are the trailing words (R84, R88). -/
theorem Operands.fill_eq_some (h : o.fill ws = some (o', rest)) :
    o'.placeholder = o.placeholder ∧ ws = o'.trailing ++ rest := by
  unfold Operands.fill at h
  split at h
  · cases h
  next a ws0 ha =>
  split at h
  · cases h
  next b ws1 hb =>
  split at h
  · cases h
  next d ws2 hd =>
  cases h
  obtain ⟨pa, rfl⟩ := Slot.fill_eq_some ha
  obtain ⟨pb, rfl⟩ := Slot.fill_eq_some hb
  obtain ⟨pd, rfl⟩ := Slot.fill_eq_some hd
  refine ⟨?_, ?_⟩
  · simp only [Operands.placeholder, pa, pb, pd]
  · rw [Operands.trailing_eq ⟨a, b, d⟩, List.append_assoc, List.append_assoc]

/-- What a stream that gives an instruction is: a word that decodes, and the trailing words of its filled
placeholders (R88). -/
theorem decodeWords_eq_ok (h : decodeWords c (w :: ws) = .ok (i, rest)) :
    ∃ j, decode c w = some j ∧ i.opcode = j.opcode ∧
      i.operands.placeholder = j.operands.placeholder ∧ ws = i.operands.trailing ++ rest := by
  simp only [decodeWords] at h
  split at h
  · cases h
  next j hj =>
  split at h
  · cases h
  next o us hf =>
  cases h
  obtain ⟨hp, hws⟩ := Operands.fill_eq_some hf
  exact ⟨j, hj, by simp, by simpa using hp, by simpa using hws⟩

/-! ### Unpacking, and packing again -/

/-- The payload of an unpacked slot is the bits it was unpacked from. -/
theorem unpackSlot_payload {n : Nat} (hn : n ≤ 32) (p k : Nat) (t : SlotState) :
    (unpackSlot n p k t).payload n = bits p k (t.payloadBits n) := by
  rcases t with _ | ⟨_ | _ | _, l⟩
  · exact (Nat.mod_one _).symm
  · exact trunc_sext hn (bits_lt p k n)
  · exact (Nat.mod_one _).symm
  · exact Nat.mod_eq_of_lt (bits_lt p k 3)

theorem unpackSlot_fitsWidth {n : Nat} (hn : n ≤ 32) (p k : Nat) (t : SlotState) :
    (unpackSlot n p k t).fitsWidth n = true := by
  rcases t with _ | ⟨_ | _ | _, l⟩
  · rfl
  · exact fits_sext hn (bits_lt p k n)
  · rfl
  · rfl

/-- `decode` gives a large immediate as its placeholder (R88). -/
theorem unpackSlot_placeholder (n p k : Nat) (t : SlotState) :
    (unpackSlot n p k t).placeholder = unpackSlot n p k t := by
  rcases t with _ | ⟨_ | _ | _, l⟩ <;> rfl

/-- The unused bits are those below the last cursor (R54, R61). -/
theorem unusedBits_eq (o : Operands) :
    unusedBits o = 17 - o.s0.state.payloadBits o.width - o.s1.state.payloadBits o.width -
      o.s2.state.payloadBits o.width := by
  have hsum : 3 * countKind .reg o.states + countKind .sconst o.states * o.width =
      o.s0.state.payloadBits o.width + o.s1.state.payloadBits o.width +
        o.s2.state.payloadBits o.width := by
    generalize o.width = n
    simp only [Operands.states, Operands.toList, List.map, countKind]
    rcases o.s0.state with _ | ⟨_ | _ | _, _⟩ <;> rcases o.s1.state with _ | ⟨_ | _ | _, _⟩ <;>
      rcases o.s2.state with _ | ⟨_ | _ | _, _⟩ <;>
      simp [SlotState.hasKind, SlotState.payloadBits] <;> omega
  rw [unusedBits, hsum]
  omega

theorem unusedBits_le (o : Operands) : unusedBits o ≤ 17 := Nat.sub_le _ _

theorem unusedBits_congr (h : o'.states = o.states) : unusedBits o' = unusedBits o := by
  simp only [unusedBits, Operands.width, h]

/-- Packing what was unpacked clears the unused bits of the payload field (R54, R86). -/
theorem unpackOperands_repack {p : Nat} (hp : p < 2 ^ 17) (t0 t1 t2 : SlotState) :
    (unpackOperands p t0 t1 t2).payload =
      p / 2 ^ unusedBits (unpackOperands p t0 t1 t2) * 2 ^ unusedBits (unpackOperands p t0 t1 t2) := by
  have hw := (payloadWidth_le [t0, t1, t2]).trans (by decide : 17 ≤ 32)
  have hwidth : (unpackOperands p t0 t1 t2).width = payloadWidth [t0, t1, t2] :=
    congrArg payloadWidth (unpackOperands_states p t0 t1 t2)
  rw [unusedBits_eq, Operands.payload, hwidth]
  simp only [unpackOperands, unpackSlot_state, unpackSlot_payload hw]
  exact pack_bits (payloadBits_sum_le t0 t1 t2) hp

theorem unpackOperands_fitsWidth (p : Nat) (t0 t1 t2 : SlotState) :
    ∀ x ∈ (unpackOperands p t0 t1 t2).toList,
      x.fitsWidth (unpackOperands p t0 t1 t2).width = true := by
  have hw := (payloadWidth_le [t0, t1, t2]).trans (by decide : 17 ≤ 32)
  rw [Operands.width, unpackOperands_states]
  simp only [Operands.toList, unpackOperands, List.forall_mem_cons]
  exact ⟨unpackSlot_fitsWidth hw _ _ _, unpackSlot_fitsWidth hw _ _ _, unpackSlot_fitsWidth hw _ _ _,
    fun _ h => absurd h List.not_mem_nil⟩

/-! ### The word of a decoded record -/

/-- Clearing the low bits of the payload field clears them in the word (R51). -/
theorem clear_low_bits {v k : Nat} (hv : v < 2 ^ 32) (hk : k ≤ 17) :
    bits v 27 5 * 2 ^ 27 + bits v 17 10 * 2 ^ 17 + bits v 0 17 / 2 ^ k * 2 ^ k =
      v / 2 ^ k * 2 ^ k := by
  have hdvd : 2 ^ k ∣ 2 ^ 17 := pow_dvd_pow 2 hk
  have hmod : v % 2 ^ 17 % 2 ^ k = v % 2 ^ k := Nat.mod_mod_of_dvd v hdvd
  have hv' := Nat.div_add_mod' v (2 ^ k)
  have hp := Nat.div_add_mod' (v % 2 ^ 17) (2 ^ k)
  rw [hmod] at hp
  have hfield : bits v 0 17 = v % 2 ^ 17 := by simp [bits]
  rw [hfield]
  simp only [bits]
  omega

/-- A decoded record is encodable, and its word is the one it was decoded from with the unused bits
cleared (R106). -/
theorem instrWord_of_decode (ho : c.OpcodeMapOk) (hd : c.DigitMapOk) (h : decode c w = some i) :
    i.encodable = true ∧
      instrWord c i = BitVec.ofNat 32
        (w.toNat / 2 ^ unusedBits i.operands * 2 ^ unusedBits i.operands) := by
  obtain ⟨op, t0, t1, t2, hop, h0, h1, h2, rfl⟩ := decode_eq_some h
  refine ⟨Instr.encodable_iff.mpr ?_, ?_⟩
  · rw [Instr.ofRecord_operands]
    exact unpackOperands_fitsWidth _ _ _ _
  have hdesc : c.desc (unpackOperands (bits w.toNat 0 17) t0 t1 t2) = bits w.toNat 17 10 := by
    simp only [Config.desc, unpackOperands, unpackSlot_state, hd.digit_of_get h0, hd.digit_of_get h1,
      hd.digit_of_get h2]
    omega
  rw [instrWord, Instr.ofRecord_opcode, Instr.ofRecord_operands, ho.number_of_get hop, hdesc,
    unpackOperands_repack (bits_lt _ 0 17), clear_low_bits w.isLt (unusedBits_le _)]

/-- Records of one opcode with the same placeholders have the same word (R84, R88). -/
theorem instrWord_congr {j : Instr} (hop : i.opcode = j.opcode)
    (hp : i.operands.placeholder = j.operands.placeholder) :
    i.encodable = j.encodable ∧ instrWord c i = instrWord c j ∧
      i.operands.states = j.operands.states := by
  obtain ⟨p0, p1, p2⟩ := Operands.mk.inj hp
  have s0 := Slot.state_of_placeholder p0
  have s1 := Slot.state_of_placeholder p1
  have s2 := Slot.state_of_placeholder p2
  have hs : i.operands.states = j.operands.states := by
    simp only [Operands.states, Operands.toList, List.map, s0, s1, s2]
  have hw : i.operands.width = j.operands.width := congrArg payloadWidth hs
  refine ⟨?_, ?_, hs⟩
  · simp only [Instr.encodable, Operands.toList, List.all_cons, hw, Slot.fitsWidth_of_placeholder p0,
      Slot.fitsWidth_of_placeholder p1, Slot.fitsWidth_of_placeholder p2]
  · simp only [instrWord, Config.desc, Operands.payload, hop, hw, s0, s1, s2,
      Slot.payload_of_placeholder p0, Slot.payload_of_placeholder p1, Slot.payload_of_placeholder p2]

/-- `decode` does not see the unused bits: the cleared word gives the same record (R63, R108). -/
theorem decode_instrWord_of_decode (ho : c.OpcodeMapOk) (hd : c.DigitMapOk)
    (h : decode c w = some i) : decode c (instrWord c i) = some i := by
  obtain ⟨henc, -⟩ := instrWord_of_decode ho hd h
  obtain ⟨op, t0, t1, t2, -, -, -, -, rfl⟩ := decode_eq_some h
  have hself : (unpackOperands (bits w.toNat 0 17) t0 t1 t2).placeholder =
      unpackOperands (bits w.toNat 0 17) t0 t1 t2 := by
    simp only [Operands.placeholder, unpackOperands, unpackSlot_placeholder]
  rw [decode_instrWord ho hd henc, Instr.ofRecord_opcode, Instr.ofRecord_operands, hself]

/-- Two words that decode give the same record exactly when they agree above the unused bits (R108). -/
theorem decode_eq_iff (ho : c.OpcodeMapOk) (hd : c.DigitMapOk) (h : decode c w = some i) :
    decode c w' = some i ↔
      w.toNat / 2 ^ unusedBits i.operands = w'.toNat / 2 ^ unusedBits i.operands := by
  have hk := unusedBits_le i.operands
  obtain ⟨-, hw⟩ := instrWord_of_decode ho hd h
  have small : ∀ v : Word, v.toNat / 2 ^ unusedBits i.operands * 2 ^ unusedBits i.operands < 2 ^ 32 :=
    fun v => (Nat.div_mul_le_self _ _).trans_lt v.isLt
  constructor
  · intro h'
    obtain ⟨-, hw'⟩ := instrWord_of_decode ho hd h'
    have e := congrArg BitVec.toNat (hw.symm.trans hw')
    rw [BitVec.toNat_ofNat, BitVec.toNat_ofNat, Nat.mod_eq_of_lt (small w),
      Nat.mod_eq_of_lt (small w')] at e
    exact Nat.eq_of_mul_eq_mul_right (Nat.two_pow_pos _) e
  · intro e
    have hdesc : bits w'.toNat 17 10 = bits w.toNat 17 10 := by
      have above : ∀ v : Nat, v / 2 ^ 17 =
          v / 2 ^ unusedBits i.operands / 2 ^ (17 - unusedBits i.operands) := fun v => by
        rw [Nat.div_div_eq_div_mul, ← pow_add, Nat.add_sub_cancel' hk]
      rw [bits, bits, above, above, e]
    obtain ⟨j, hj, hs⟩ := decode_states_congr hdesc ho hd h
    obtain ⟨-, hw'⟩ := instrWord_of_decode ho hd hj
    rw [unusedBits_congr hs, ← e, ← hw] at hw'
    have hji := decode_instrWord_of_decode ho hd hj
    rw [hw', decode_instrWord_of_decode ho hd h] at hji
    rw [hj, hji]

/-- Settles O2: the record has the placeholders that `decode` gives, whose word is the cleared one, and
its trailing words are those the placeholders were filled from. -/
theorem encodeOfDecodeClearsUnusedBits : Obligations.EncodeOfDecodeClearsUnusedBits := by
  intro c w ws rest i ho hd h u
  obtain ⟨j, hj, hop, hp, hws⟩ := decodeWords_eq_ok h
  obtain ⟨henc, hword, hs⟩ := instrWord_congr (c := c) hop hp
  obtain ⟨jenc, jword⟩ := instrWord_of_decode ho hd hj
  have hi : i.encodable = true := henc.trans jenc
  have hcode : encode c i = some (BitVec.ofNat 32 (w.toNat / 2 ^ u * 2 ^ u), i.operands.trailing) := by
    rw [encode, if_pos hi, hword, jword, ← unusedBits_congr hs]
  refine ⟨i.operands.trailing, hws, i.operands.trailing_length, hi, hcode, fun hu => ?_⟩
  rw [hcode, Nat.div_mul_cancel (Nat.dvd_of_mod_eq_zero hu), BitVec.ofNat_toNat, BitVec.setWidth_eq]

/-- Settles O3: the descriptor alone decides whether there is a record, and the record fixes the word up
to the unused bits. -/
theorem decodeTotalAndBlindToUnusedBits : Obligations.DecodeTotalAndBlindToUnusedBits :=
  fun _ _ _ _ ho hd => ⟨decode_eq_none_iff ho hd, decode_eq_iff ho hd⟩

end Sys2Proof
end

section
/-! PROOFS. What `encode` makes of a record (30_encoding.md R51 to R55, 40_codec.md R85): the fields of the
word, and when a small immediate is out of range. -/

namespace Sys2Proof

open Machine

variable {c : Config} {i : Instr} {o : Operands}

/-! ### The fields of the word -/

/-- The width by its formula, also without a small immediate: a quotient by 0 is 0, as the width then is. -/
theorem payloadWidth_eq (ts : List SlotState) :
    payloadWidth ts = (17 - 3 * countKind .reg ts) / countKind .sconst ts := by
  by_cases h : countKind .sconst ts = 0
  · rw [payloadWidth, derivedWidth, if_pos h, h, Nat.div_zero]; rfl
  · rw [payloadWidth, derivedWidth, if_neg h]; rfl

theorem cursorStep_eq (n : Nat) (x : Slot) : cursorStep n x = x.state.payloadBits n := by
  cases x <;> rfl

/-- A field inside the payload field is read from the whole word. -/
theorem bits_mod_payload {v lo len : Nat} (h : lo + len ≤ 17) :
    v / 2 ^ lo % 2 ^ len = bits (bits v 0 17) lo len := by
  have hsplit : (2 : Nat) ^ 17 = 2 ^ lo * 2 ^ (17 - lo) := by
    rw [← pow_add, Nat.add_sub_cancel' (by omega)]
  have hdvd : (2 : Nat) ^ len ∣ 2 ^ (17 - lo) := pow_dvd_pow 2 (by omega)
  simp only [bits, pow_zero, Nat.div_one]
  rw [hsplit, Nat.mod_mul_right_div_self, Nat.mod_mod_of_dvd _ hdvd]

/-- A slot's payload stands where its bits are read back (R57, R58). -/
theorem holdsPayload_of_bits {v n k : Nat} {x : Slot} (hk : k + x.state.payloadBits n ≤ 17)
    (h : bits (bits v 0 17) k (x.state.payloadBits n) = x.payload n) : HoldsPayload v n k x := by
  rw [← bits_mod_payload hk] at h
  cases x with
  | sconst l y => exact h.trans (by rw [Slot.payload, trunc, bits, pow_zero, Nat.div_one])
  | reg l r => exact h
  | _ => trivial

theorem Operands.payloadBits_sum_le (o : Operands) :
    o.s0.state.payloadBits o.width + o.s1.state.payloadBits o.width +
      o.s2.state.payloadBits o.width ≤ 17 :=
  Sys2Proof.payloadBits_sum_le _ _ _

/-- The bits below the last cursor are 0 (R54, R84). -/
theorem Operands.payload_mod_eq_zero (o : Operands) :
    o.payload % 2 ^ (17 - o.s0.state.payloadBits o.width - o.s1.state.payloadBits o.width -
      o.s2.state.payloadBits o.width) = 0 := by
  simp only [Operands.payload, cursors]
  rw [pack_eq o.payloadBits_sum_le]
  exact Nat.mul_mod_left _ _

/-- Settles O5: the three fields are read back from the number they form, and in the payload field each
slot from its cursor. -/
theorem encodedWordHasTheThreeFields : Obligations.EncodedWordHasTheThreeFields := by
  intro c i word t ho hd h o v w c0 c1 c2
  have hword : word = instrWord c i := by
    unfold encode at h
    split at h <;> cases h
    rfl
  have hw : w = o.width := (payloadWidth_eq o.states).symm
  have hsum := o.payloadBits_sum_le
  have hc0 : c0 = 17 - o.s0.state.payloadBits o.width := by rw [← hw, ← cursorStep_eq]
  have hc1 : c1 = c0 - o.s1.state.payloadBits o.width := by rw [← hw, ← cursorStep_eq]
  have hc2 : c2 = c1 - o.s2.state.payloadBits o.width := by rw [← hw, ← cursorStep_eq]
  have hdesc := hd.desc_lt o
  obtain ⟨bop, bdesc, bpay⟩ := bits_fields (ho.number_lt i.opcode) (hdesc.trans (by decide))
    o.payload_lt
  have hv : v = (instrWord c i).toNat := congrArg BitVec.toNat hword
  rw [← instrWord, ← hv] at bop bdesc bpay
  obtain ⟨r0, r1, r2⟩ := bits_pack hsum (o.s0.payload_lt _) (o.s1.payload_lt _) (o.s2.payload_lt _)
  rw [hw, hc2, hc1, hc0]
  refine ⟨?_, bdesc, ?_, ?_, ?_, ?_, ?_⟩
  · have hlt : v < 2 ^ 32 := word.isLt
    rw [bits] at bop
    exact (Nat.mod_eq_of_lt (by omega)).symm.trans bop
  · rw [bits] at bdesc; omega
  · exact holdsPayload_of_bits (by omega) (bpay ▸ r0)
  · exact holdsPayload_of_bits (by omega) (bpay ▸ r1)
  · exact holdsPayload_of_bits (by omega) (bpay ▸ r2)
  · have hz := o.payload_mod_eq_zero
    rw [← bpay] at hz
    simp only [bits, pow_zero, Nat.div_one] at hz
    rwa [Nat.mod_mod_of_dvd _ (pow_dvd_pow 2 (by omega))] at hz

/-! ### The range of a small immediate -/

/-- A value fits `n` bits exactly when it is in their signed range (R7). -/
theorem fits_iff {n : Nat} (h1 : 1 ≤ n) (h32 : n ≤ 32) (v : Word) :
    fits n v = true ↔ -(2 : Int) ^ (n - 1) ≤ v.toInt ∧ v.toInt ≤ (2 : Int) ^ (n - 1) - 1 := by
  have hsext : (sext n (trunc n v)).toInt = (BitVec.ofInt n v.toInt).toInt := by
    have htrunc : BitVec.ofNat n (trunc n v) = v.setWidth n := by
      refine BitVec.eq_of_toNat_eq ?_
      simp [trunc, bits]
    rw [sext, BitVec.toInt_signExtend_of_le h32, htrunc, BitVec.toInt_setWidth, BitVec.toInt_ofInt,
      v.toInt_eq_toNat_bmod, Int.bmod_bmod_of_dvd (pow_dvd_pow 2 h32)]
  rw [fits, beq_iff_eq, ← BitVec.toInt_inj, hsext]
  constructor
  · intro h
    rw [← h]
    exact ⟨BitVec.le_toInt _, BitVec.toInt_le⟩
  · exact fun ⟨hlo, hhi⟩ => BitVec.toInt_ofInt_eq_self h1 hlo (Int.lt_of_le_sub_one hhi)

/-- A small immediate has at least one bit (R55). -/
theorem Operands.one_le_width {x : Slot} (hx : x ∈ o.toList)
    (hk : SlotState.hasKind .sconst x.state = true) : 1 ≤ o.width := by
  have hS : 1 ≤ countKind .sconst o.states :=
    List.countP_pos_iff.mpr ⟨x.state, List.mem_map_of_mem hx, hk⟩
  have hsum := countKind_sconst_add_reg_le o.states
  have hlen : o.states.length = 3 := rfl
  rw [Operands.width, payloadWidth_eq, Nat.le_div_iff_mul_le hS]
  omega

theorem Operands.width_le (o : Operands) : o.width ≤ 32 :=
  (payloadWidth_le o.states).trans (by decide)

/-- A slot does not fit exactly when it is a small immediate out of the signed range (R85). -/
theorem fitsWidth_eq_false_iff {x : Slot} (hx : x ∈ o.toList) :
    x.fitsWidth o.width = false ↔ ∃ l v, x = .sconst l v ∧
      ¬ (-(2 : Int) ^ (o.width - 1) ≤ v.toInt ∧ v.toInt ≤ (2 : Int) ^ (o.width - 1) - 1) := by
  cases x with
  | sconst l v =>
    rw [Slot.fitsWidth, ← Bool.not_eq_true, fits_iff (o.one_le_width hx rfl) o.width_le v]
    refine ⟨fun h => ⟨l, v, rfl, h⟩, ?_⟩
    rintro ⟨_, _, ⟨⟩, h⟩
    exact h
  | _ => simp [Slot.fitsWidth]

/-- Settles O9: `encode` fails when some slot does not fit, and only small immediates can fail to. -/
theorem rangeErrorIsOutsideTheSignedRange : Obligations.RangeErrorIsOutsideTheSignedRange := by
  intro c i
  have hnone : encode c i = none ↔ i.encodable = false := by
    unfold encode
    split <;> simp_all
  rw [hnone, Instr.encodable, List.all_eq_false]
  refine exists_congr fun x => and_congr_right fun hx => ?_
  rw [Bool.not_eq_true, fitsWidth_eq_false_iff hx]

end Sys2Proof
end

section
/-! PROOFS. The tables of the codec: `validate` on the default digits (40_codec.md R104), and the worked
examples with the default maps (R109, 30_encoding.md R53, R56). -/

namespace Sys2Proof

open Machine

variable {t t0 t1 t2 : SlotState}

/-! ### The policies by presence and writability -/

/-- ARITH (R96): two sources, and slot 2 writable, or absent with slot 0 writable. -/
theorem Policy.arith_accepts_eq :
    Policy.arith.accepts t0 t1 t2 = (t0.isPresent && t1.isPresent &&
      ((!t2.isPresent && t0.isWritable) || t2.isWritable)) := by
  simp only [Policy.accepts, SlotState.isWritable]
  cases t0.isPresent <;> cases t2.isPresent <;> simp

/-- NOT (R97): one source, no slot 2, and slot 1 writable, or absent with slot 0 writable. -/
theorem Policy.not_accepts_eq :
    Policy.not.accepts t0 t1 t2 = (t0.isPresent && !t2.isPresent &&
      ((!t1.isPresent && t0.isWritable) || t1.isWritable)) := by
  simp only [Policy.accepts, SlotState.isWritable]
  cases t0.isPresent <;> cases t1.isPresent <;> simp

/-! ### The default digits -/

/-- A property of all ten descriptor states is checked on each (R53). -/
theorem SlotState.forall_of_mem_digitMap {p : SlotState → Prop} (h : ∀ t ∈ defaultDigitMap, p t)
    (t : SlotState) : p t :=
  h t (Config.default_mapsOk.2.mem t)

theorem SlotState.isPresent_eq_digit (t : SlotState) :
    t.isPresent = decide (Config.default.digit t ≥ 1) := by
  revert t
  exact forall_of_mem_digitMap (by decide)

theorem not_decide_one_le (d : Nat) : (!decide (d ≥ 1)) = (d == 0) := by
  cases d <;> simp

theorem SlotState.isWritable_eq_digit (t : SlotState) :
    t.isWritable = decide (Config.default.digit t ≥ 3) := by
  revert t
  exact forall_of_mem_digitMap (by decide)

/-- Settles O7: each policy speaks of presence and writability alone, and these are the digits from 1 and
from 3 on. -/
theorem validateIsTheDigitTable : Obligations.ValidateIsTheDigitTable := by
  intro i
  unfold Instr.validate validDigits
  cases i.opcode <;>
    simp only [Opcode.policy, Policy.arith_accepts_eq, Policy.not_accepts_eq] <;>
    simp only [Policy.accepts, SlotState.isPresent_eq_digit, SlotState.isWritable_eq_digit,
      not_decide_one_le]

/-! ### Worked examples -/

/-- Settles O10: the words and the two tables, evaluated. -/
theorem workedExamplesOfTheCodec : Obligations.WorkedExamplesOfTheCodec :=
  ⟨by decide, by decide, by decide, by decide, by decide, by decide, by decide⟩

end Sys2Proof
end

section
/-! PROOFS. The decoder block undoes the encoder block (40_codec.md R81, R82). -/

namespace Sys2Proof.Machine

variable {c : Config} {p : EncoderIn} {i : Instr}

@[simp] theorem slotOfPort_state (v : Word) (t : SlotState) : (slotOfPort v t).state = t := by
  rcases t with _ | ⟨_ | _ | _, l⟩ <;> rfl

/-- The record on the encoder's inputs has the opcode and the states whose numbers stand there (R82). -/
theorem recordOfPorts_eq_some (ho : c.OpcodeMapOk) (hd : c.DigitMapOk)
    (h : recordOfPorts c p = some i) :
    c.opcodeNumber i.opcode = p.op.toNat ∧ c.digit i.operands.s0.state = p.state0.toNat ∧
      c.digit i.operands.s1.state = p.state1.toNat ∧ c.digit i.operands.s2.state = p.state2.toNat := by
  unfold recordOfPorts at h
  split at h
  · next op t0 t1 t2 hop h0 h1 h2 =>
    cases h
    simp only [Instr.ofRecord_opcode, Instr.ofRecord_operands, slotOfPort_state]
    exact ⟨ho.number_of_get hop, hd.digit_of_get h0, hd.digit_of_get h1, hd.digit_of_get h2⟩
  · cases h

/-- The decoder block on an encodable record's word: the opcode's number, and the fields of the record
with placeholders (R81, R88). -/
theorem decoderPorts_instrWord (ho : c.OpcodeMapOk) (hd : c.DigitMapOk) (h : i.encodable = true) :
    decoderPorts c (instrWord c i) =
      { op := BitVec.ofNat 5 (c.opcodeNumber i.opcode), descError := false,
        fields := some (decoderFields c (Instr.ofRecord i.opcode i.operands.placeholder)) } := by
  have hdesc := hd.desc_lt i.operands
  obtain ⟨bop, bdesc, -⟩ := bits_fields (ho.number_lt i.opcode) (hdesc.trans (by decide))
    i.operands.payload_lt
  rw [← instrWord] at bop bdesc
  rw [decoderPorts, decode_instrWord ho hd h, bop, bdesc, decide_eq_false (Nat.not_le.mpr hdesc)]
  rfl

end Sys2Proof.Machine

namespace Sys2Proof

open Machine

/-- Settles O11: both blocks name opcode and states by their numbers in the maps, and the decoder's slots
are the placeholders of the encoder's. -/
theorem decoderPortsUndoEncoderPorts : Obligations.DecoderPortsUndoEncoderPorts := by
  intro c p i out ho hd hrec hout hrange
  rw [encoderPorts, hrec, Option.map_some, Option.some.injEq] at hout
  subst hout
  have henc : i.encodable = true := by simpa using hrange
  obtain ⟨nop, n0, n1, n2⟩ := recordOfPorts_eq_some ho hd hrec
  have hs : i.operands.placeholder.states = i.operands.states := by
    simp [Operands.states, Operands.toList, Operands.placeholder]
  refine ⟨instrWord c i, decoderFields c (Instr.ofRecord i.opcode i.operands.placeholder),
    by simp [encode, henc], ?_, ?_, ?_, ?_, ?_, ?_⟩
  · rw [decoderPorts_instrWord ho hd henc, nop, BitVec.ofNat_toNat, BitVec.setWidth_eq]
  · simp [decoderFields, Operands.placeholder, n0]
  · simp [decoderFields, Operands.placeholder, n1]
  · simp [decoderFields, Operands.placeholder, n2]
  · rw [decoderFields, Instr.ofRecord_operands, Operands.nTrailing_congr hs]
  · simp [decoderFields, Operands.placeholder]

end Sys2Proof
end

section
/-! PROOFS. From bytes to a loaded program (70_reset_and_hazards.md R231, 20_memory.md R37), and from a
label reference to the label (30_encoding.md R67). -/

namespace Sys2Proof

/-! ### The object stream -/

theorem wordOfBytes_toNat (b0 b1 b2 b3 : Byte) :
    (wordOfBytes b0 b1 b2 b3).toNat =
      b0.toNat + 2 ^ 8 * b1.toNat + 2 ^ 16 * b2.toNat + 2 ^ 24 * b3.toNat := by
  have h0 := b0.isLt
  have h1 := b1.isLt
  have h2 := b2.isLt
  have h3 := b3.isLt
  rw [wordOfBytes, BitVec.toNat_ofNat]
  omega

theorem wordsOfBytes_length (bs : List Byte) : (wordsOfBytes bs).length = bs.length / 4 := by
  induction bs using wordsOfBytes.induct with
  | case1 b0 b1 b2 b3 bs ih =>
    simp only [wordsOfBytes, List.length_cons, ih]
    omega
  | case2 bs hshort =>
    rw [wordsOfBytes.eq_2 bs hshort]
    rcases bs with _ | ⟨b0, _ | ⟨b1, _ | ⟨b2, _ | ⟨b3, bs⟩⟩⟩⟩
    · rfl
    · simp
    · simp
    · simp
    · exact (hshort b0 b1 b2 b3 bs rfl).elim

/-- Word `k` is made of bytes `4k` to `4k+3`, the first least significant (R37). -/
theorem wordsOfBytes_getElem? (bs : List Byte) (k : Nat) (h : k < bs.length / 4) :
    (wordsOfBytes bs)[k]? = some (wordOfBytes (bs.getD (4 * k) 0) (bs.getD (4 * k + 1) 0)
      (bs.getD (4 * k + 2) 0) (bs.getD (4 * k + 3) 0)) := by
  induction bs using wordsOfBytes.induct generalizing k with
  | case1 b0 b1 b2 b3 bs ih =>
    cases k with
    | zero => rfl
    | succ k =>
      simp only [List.length_cons] at h
      exact ih k (by omega)
  | case2 bs hshort =>
    rw [← wordsOfBytes_length, wordsOfBytes.eq_2 bs hshort] at h
    cases h

open Machine

/-- Settles O12: the loader checks the length, and the words it then makes fill the reset state's
program. -/
theorem loaderBuildsLittleEndianWords : Obligations.LoaderBuildsLittleEndianWords := by
  intro s bytes
  refine ⟨fun hbad => ?_, fun hpos hmod hmax => ?_⟩
  · rw [State.load, programOfBytes, if_pos hbad]
  · have hgood : ¬ (bytes.length = 0 ∨ bytes.length % 4 ≠ 0) := by omega
    refine ⟨State.resetWith s.cfg (wordsOfBytes bytes), ?_, rfl, wordsOfBytes_length bytes,
      fun k hk => ?_⟩
    · rw [State.load, programOfBytes, if_neg hgood, if_neg (Nat.not_lt.mpr hmax)]
    · have hk' : k < bytes.length / 4 := wordsOfBytes_length bytes ▸ hk
      exact ⟨_, wordsOfBytes_getElem? bytes k hk', wordOfBytes_toNat _ _ _ _⟩

/-! ### Labels -/

/-- A constant in the direct location passes every stage before a jump's rule (R98, R127). -/
theorem Machine.State.executes_jmp_lconst {s : State} (hj : s.j = false) (d : Word) :
    s.Executes (.jmp ⟨.lconst .direct d, .absent, .absent⟩) :=
  ⟨hj, rfl, rfl⟩

/-- Settles O13: the assembled word is the distance to the label, and `jmp` adds it to its own address. -/
theorem jumpToALabelReachesTheLabel : Obligations.JumpToALabelReachesTheLabel := by
  intro table known addr target name hknown htarget
  refine ⟨labelDelta target addr, ?_, fun s hj hpc => ?_⟩
  · rw [slotOfToken, if_pos (List.contains_iff_mem.mpr hknown), htarget]
  · obtain ⟨l0, e0, hx⟩ := (State.executes_jmp_lconst hj _).exec_jump (cond := condJmp) rfl rfl
    cases e0
    refine ⟨_, hx, ?_⟩
    calc s.pc + labelDelta target addr
      _ = BitVec.ofNat 32 addr + (BitVec.ofNat 32 target - BitVec.ofNat 32 addr) := by
        rw [hpc, labelDelta]
      _ = BitVec.ofNat 32 target := by rw [BitVec.add_comm, BitVec.sub_add_cancel]

end Sys2Proof
end

section
/-! PROOFS. The resolver and `Write` (41_step_and_operands.md R126 to R131), and that no instruction ends
in a refusal (93_implementation_defined.md U20, 40_codec.md R93). -/

namespace Sys2Proof.Machine

variable {i : Instr} {s t : State}

/-! ### Resolution -/

/-- A constant or a register that indexes memory names the cell of its value, taken at `sp` for the stack
(R128, R129). -/
theorem State.locate_memory (s : State) {x : Slot} {v : Word} :
    ((x = .sconst .stack v ∨ x = .lconst .stack v ∨ ∃ i, x = .reg .stack i ∧ v = s.reg i) →
      s.locate x = some (.stackCell (s.sp + v).toNat)) ∧
    ((x = .sconst .heap v ∨ x = .lconst .heap v ∨ ∃ i, x = .reg .heap i ∧ v = s.reg i) →
      s.locate x = some (.heapCell v.toNat)) := by
  constructor <;> rintro (rfl | rfl | ⟨i, rfl, rfl⟩) <;> rfl

/-- A located stack cell resolves below the limit and faults at or beyond it (R35, R125). -/
theorem State.resolve_stackCell {x : Slot} {a : Nat} (h : s.locate x = some (.stackCell a)) :
    s.resolve x =
      if a < s.cfg.stackLimit then .ok (some (.stackCell a)) else .error (.raise .memoryLimit) := by
  simp only [State.resolve, h, State.inLimit, decide_eq_true_eq]

/-- A located heap cell resolves below the limit and faults at or beyond it (R35, R125). -/
theorem State.resolve_heapCell {x : Slot} {a : Nat} (h : s.locate x = some (.heapCell a)) :
    s.resolve x =
      if a < s.cfg.heapLimit then .ok (some (.heapCell a)) else .error (.raise .memoryLimit) := by
  simp only [State.resolve, h, State.inLimit, decide_eq_true_eq]

/-- A slot that does not resolve is located past its limit. -/
theorem State.inLimits_eq_false_of_resolve {o : Operands} {x : Slot} (hx : x ∈ o.toList)
    (h : s.resolve x = .error (.raise .memoryLimit)) : s.inLimits o = false := by
  rcases s.resolve_cases x with ⟨hok, -⟩ | ⟨-, l, hl, hout⟩
  · rw [h] at hok; cases hok
  · refine Bool.eq_false_iff.mpr fun hin => ?_
    rw [State.inLimits_eq_true.mp hin x hx l hl] at hout
    cases hout

/-- A valid instruction with a slot past its limit faults at stage 5, ahead of its own rule (R125). -/
theorem exec_of_not_inLimits (hn : i.opcode ≠ .entry) (hj : s.j = false) (hv : i.validate = true)
    (hl : s.inLimits i.operands = false) : exec i s = .next (s.raise .memoryLimit) := by
  rw [exec_eq i s hn, execute_eq, if_neg (Bool.eq_false_iff.mp hj), if_pos hv,
    if_neg (Bool.eq_false_iff.mp hl)]

/-! ### No refusal -/

/-- What raises or ends well ends in a next state. -/
theorem finish_next {r : Except Stop State} (h : ∀ q, r ≠ .error (.refuse q)) :
    ∃ t, finish s r = .next t := by
  rcases r with (c | q) | t
  · exact ⟨_, rfl⟩
  · exact absurd rfl (h q)
  · exact ⟨t, rfl⟩

/-- Every instruction ends in a next state: what its rule could refuse, validation has ruled out. -/
theorem exec_next (i : Instr) (s : State) : ∃ t, exec i s = .next t := by
  by_cases hn : i.opcode = .entry
  · exact ⟨_, exec_of_entry s hn⟩
  · rw [exec_eq i s hn, execute_eq]
    split
    · exact ⟨_, rfl⟩
    · split
      next hv =>
        split
        · exact finish_next (rule_not_refused hv)
        · exact ⟨_, rfl⟩
      · exact ⟨_, rfl⟩

/-- Every step ends in a next state. -/
theorem step_next (s : State) : ∃ t, step s = .next t := by
  cases hs : s.status with
  | running =>
    cases hd : decodeWords s.cfg (s.prog.drop s.pc.toNat) with
    | error e => exact ⟨_, step_of_decodeWords_error hs hd⟩
    | ok p => rw [step_of_decodeWords_ok hs hd]; exact exec_next p.1 s
  | halted => exact ⟨s, by simp only [step, hs]⟩
  | faulted c => exact ⟨s, by simp only [step, hs]⟩

end Sys2Proof.Machine

namespace Sys2Proof

open Machine

/-- Settles O15: each of the six modes locates one cell, and its memory's limit decides. -/
theorem memorySlotsAddressStackAndHeap : Obligations.MemorySlotsAddressStackAndHeap := by
  intro s x v
  obtain ⟨hstack, hheap⟩ := s.locate_memory (x := x) (v := v)
  refine ⟨fun h => ?_, fun h => State.resolve_heapCell (hheap h)⟩
  rw [← BitVec.toNat_add]
  exact State.resolve_stackCell (hstack h)

/-- Settles O16: reading back needs the canonical form of the memories; the refusal of an immediate is
met by no instruction. -/
theorem writeChangesOnePlace : Obligations.WriteChangesOnePlace := by
  intro s l v hi
  refine ⟨fun hl => ?_, fun u hu => by rw [hu]; rfl, fun i hx => ?_⟩
  · obtain ⟨t, hw⟩ := s.write_ok hl v
    exact ⟨t, hw, hi.read_write_self hw, fun l' => State.read_write_ne hw, State.write_other hw⟩
  · obtain ⟨t, ht⟩ := exec_next i s
    rw [ht] at hx
    cases hx

/-- Settles O20: a stopped core answers itself, a failed fetch its fault, and an instruction a next
state. -/
theorem everyStepAnswersANextState : Obligations.EveryStepAnswersANextState := ⟨step_next, exec_next⟩

/-- Settles O26: resolution comes before the instruction's own rule. -/
theorem resolutionFaultsBeforeExecution : Obligations.ResolutionFaultsBeforeExecution :=
  fun _ _ _ hn hj hv hx h => exec_of_not_inLimits hn hj hv (State.inLimits_eq_false_of_resolve hx h)

end Sys2Proof
end

section
/-! PROOFS. What holds of every step: a stopped core stays (41_step_and_operands.md R120), a fault changes
`status` alone (60_exceptions.md R207), only `hlt` halts (45_system.md R197), the program and the
parameters stay (20_memory.md R30, R44), and the page size is never read (R35). -/

namespace Sys2Proof.Machine

variable {i : Instr} {s t : State}

/-! ### Stopped cores -/

theorem step_of_stopped (h : s.status ≠ .running) : step s = .next s := by
  unfold step
  split
  next hr => exact absurd hr h
  · rfl
  · rfl

theorem run_of_stopped (h : s.status ≠ .running) (k : Nat) : Host.Core.run core k s = .next s := by
  induction k with
  | zero => rfl
  | succ k ih =>
    have hs : core.step s = .next s := step_of_stopped h
    simp only [Host.Core.run, hs, ih]

/-! ### How a running core stops -/

/-- A running core faults by raising its fault in the state before the step (R207). -/
theorem eq_raise_of_step_faulted {c : Cause} (hr : s.status = .running) (h : step s = .next t)
    (ht : t.status = .faulted c) : t = s.raise c := by
  have eq_of_raised : ∀ {c'}, t = s.raise c' → t = s.raise c := by
    rintro c' rfl
    rw [Status.faulted.inj ht]
  rcases step_cases h with ⟨hs, -⟩ | ⟨-, e, -, he⟩ | ⟨-, i, rest, -, hx⟩
  · exact absurd hr hs
  · exact eq_of_raised he
  · rcases (exec_effect hx).status_cases with ⟨c', he⟩ | hst | ⟨-, -, rfl⟩
    · exact eq_of_raised he
    · rw [hst, hr] at ht; cases ht
    · cases ht

/-- A running core halts by a `hlt` that executes normally (R191, R197). -/
theorem hlt_of_step_halted (hr : s.status = .running) (h : step s = .next t)
    (ht : t.status = .halted) :
    ∃ o rest, decodeWords s.cfg (s.prog.drop s.pc.toNat) = .ok (.hlt o, rest) ∧
      s.Executes (.hlt o) ∧ t = s.setStatus .halted := by
  rcases step_cases h with ⟨hs, -⟩ | ⟨-, e, -, rfl⟩ | ⟨-, i, rest, hd, hx⟩
  · exact absurd hr hs
  · cases ht
  · rcases (exec_effect hx).status_cases with ⟨c, rfl⟩ | hst | ⟨hop, he, rfl⟩
    · cases ht
    · rw [hst, hr] at ht; cases ht
    · cases i with
      | hlt o => exact ⟨o, rest, hd, he, rfl⟩
      | _ => cases hop

/-! ### What no step changes -/

theorem step_frozen (h : step s = .next t) : t.prog = s.prog ∧ t.cfg = s.cfg := by
  rcases step_cases h with ⟨-, rfl⟩ | ⟨-, e, -, rfl⟩ | ⟨-, i, rest, -, hx⟩
  · exact ⟨rfl, rfl⟩
  · exact ⟨rfl, rfl⟩
  · exact (exec_effect hx).frozen

/-! ### The page size -/

/-- The state with another `PAGE_WORDS`. -/
def State.setPageWords (p : Nat) (s : State) : State :=
  { s with cfg := { s.cfg with pageWords := p } }

theorem State.setPageWords_blind (p : Nat) : Blind (State.setPageWords p) := by
  constructor <;> intros <;> rfl

/-- The fetch reads the maps and the program alone (R86, R121). -/
theorem decodeWords_setPageWords (p : Nat) (s : State) (ws : List Word) :
    decodeWords (s.setPageWords p).cfg ws = decodeWords s.cfg ws := by
  cases ws <;> rfl

/-- A step commutes with a change of the page size. -/
theorem step_setPageWords (p : Nat) (h : step s = .next t) :
    step (s.setPageWords p) = .next (t.setPageWords p) := by
  have hfetch := decodeWords_setPageWords p s (s.prog.drop s.pc.toNat)
  rcases step_cases h with ⟨hs, rfl⟩ | ⟨hr, e, hd, rfl⟩ | ⟨hr, i, rest, hd, hx⟩
  · exact step_of_stopped hs
  · rw [hd] at hfetch
    exact step_of_decodeWords_error (s := s.setPageWords p) hr hfetch
  · rw [hd] at hfetch
    rw [step_of_decodeWords_ok (s := s.setPageWords p) hr hfetch]
    exact (State.setPageWords_blind p).exec (.inr ⟨fun _ => rfl, fun _ _ => rfl⟩)
      (.inr fun _ _ _ => rfl) (.inr ⟨fun _ => rfl, fun _ => rfl⟩) hx

end Sys2Proof.Machine

namespace Sys2Proof

open Machine

/-- Settles O17: the fetch gives the instruction, and the rest of the step is `exec`. -/
theorem stepRunsTheDecodedInstruction : Obligations.StepRunsTheDecodedInstruction :=
  fun _ _ _ => step_of_decodeWords_ok

/-- Settles O18: the status gate comes before the fetch. -/
theorem stoppedCoreDoesNothing : Obligations.StoppedCoreDoesNothing := fun _ => step_of_stopped

/-- Settles O19: no number of steps moves a stopped core, and a fault is raised in the state before the
step. -/
theorem stepIsAtomicAndOnlyWhileRunning : Obligations.StepIsAtomicAndOnlyWhileRunning :=
  ⟨fun _ k h => run_of_stopped h k, fun _ _ _ => eq_raise_of_step_faulted⟩

/-- Settles O22: `decode` gives no record, which is the fetch's fault. -/
theorem badDescriptorFaults : Obligations.BadDescriptorFaults := by
  intro s w hr hw hdesc
  obtain ⟨hlt, rfl⟩ := List.getElem?_eq_some_iff.mp hw
  refine step_of_decodeWords_error (e := .descError) hr ?_
  simp only [List.drop_eq_getElem_cons hlt, decodeWords, decode_of_desc_ge hdesc]

/-- Settles O27: the state of a fault has the old `pc`, which is the address it records. -/
theorem faultRecordsItsCodeAndAddress : Obligations.FaultRecordsItsCodeAndAddress := by
  refine ⟨rfl, fun s t c hr h ht => ?_⟩
  rw [eq_raise_of_step_faulted hr h ht]
  rfl

/-- Settles O28: no effect of an instruction touches them, and neither does a fault. -/
theorem programAndParametersNeverChange : Obligations.ProgramAndParametersNeverChange :=
  fun _ _ => step_frozen

/-- Settles O31: the `hlt` is valid, so it has no operand. -/
theorem onlyHltHalts : Obligations.OnlyHltHalts := by
  intro s t hr h ht
  obtain ⟨o, rest, hd, he, rfl⟩ := hlt_of_step_halted hr h ht
  have ho : o = {} := Policy.none_accepts.mp he.valid
  exact ⟨⟨rest, ho ▸ hd⟩, rfl⟩

/-- Settles O33: a change of the page size is blind, and the fetch does not see it. -/
theorem pageSizeHasNoEffect : Obligations.PageSizeHasNoEffect := fun _ _ p => step_setPageWords p

/-- Settles O36: an empty memory reads `MEM_INIT`. -/
theorem resetLeavesTheResetValues : Obligations.ResetLeavesTheResetValues := by
  intro s t
  refine ⟨rfl, rfl, fun r => ?_, rfl, rfl, rfl, rfl, rfl, rfl, fun v hv a => ?_⟩
  · exact Vector.getElem_replicate r.isLt
  · have hstack : stackBlank s.cfg a = v := by simp only [stackBlank, hv]
    have hheap : heapBlank s.cfg a = v := by simp only [heapBlank, hv]
    exact ⟨hstack, hheap⟩

end Sys2Proof
end

section
/-! PROOFS. The arithmetic instructions that are left (42_arithmetic.md R141 to R149): what the binary rule
does with a function that may raise, and the functions as the spec states them. -/

namespace Sys2Proof.Machine

variable {i : Instr} {s : State}

/-! ### The functions -/

/-- `f` of `sub` is the integer difference, narrowed to 32 bits (R141). -/
theorem aluSub_eq_ofInt (a b : Word) : aluSub a b = BitVec.ofInt 32 (a.toNat - b.toNat) := by
  have ofInt_toNat : ∀ x : Word, BitVec.ofInt 32 x.toNat = x := fun x => by
    rw [BitVec.ofInt_natCast, BitVec.ofNat_toNat, BitVec.setWidth_eq]
  rw [aluSub, BitVec.sub_eq_iff_eq_add]
  calc a
    _ = BitVec.ofInt 32 (a.toNat - b.toNat + b.toNat) := by rw [sub_add_cancel, ofInt_toNat]
    _ = BitVec.ofInt 32 (a.toNat - b.toNat) + b := by rw [BitVec.ofInt_add, ofInt_toNat]

/-- `f` of `mul` is the product modulo 2^32 (R142). -/
theorem aluMul_eq_ofNat (a b : Word) :
    aluMul a b = BitVec.ofNat 32 (a.toNat * b.toNat % 2 ^ 32) := by
  apply BitVec.eq_of_toNat_eq
  rw [aluMul, BitVec.toNat_mul, BitVec.toNat_ofNat, Nat.mod_mod]

/-- `f` of `div` is the unsigned quotient (R143). -/
theorem aluDiv_eq_ofNat (a b : Word) : aluDiv a b = BitVec.ofNat 32 (a.toNat / b.toNat) := by
  apply BitVec.eq_of_toNat_eq
  rw [aluDiv, BitVec.toNat_udiv, BitVec.toNat_ofNat,
    Nat.mod_eq_of_lt ((Nat.div_le_self _ _).trans_lt a.isLt)]

/-- `f` of `shl`: the whole count, so 0 from 32 on (R147). -/
theorem aluShl_eq_ofNat (a b : Word) :
    aluShl a b = BitVec.ofNat 32 (if b.toNat ≥ 32 then 0 else a.toNat * 2 ^ b.toNat % 2 ^ 32) := by
  unfold aluShl
  split
  · rfl
  · apply BitVec.eq_of_toNat_eq
    rw [BitVec.toNat_shiftLeft, BitVec.toNat_ofNat, Nat.shiftLeft_eq, Nat.mod_mod]

/-- `f` of `shr`: the whole count, so 0 from 32 on (R148). -/
theorem aluShr_eq_ofNat (a b : Word) :
    aluShr a b = BitVec.ofNat 32 (if b.toNat ≥ 32 then 0 else a.toNat / 2 ^ b.toNat) := by
  unfold aluShr
  split
  · rfl
  · apply BitVec.eq_of_toNat_eq
    rw [BitVec.toNat_ushiftRight, BitVec.toNat_ofNat, Nat.shiftRight_eq_div_pow,
      Nat.mod_eq_of_lt ((Nat.div_le_self _ _).trans_lt a.isLt)]

/-- `not` subtracts from all ones (R149). -/
theorem aluNot_eq_ofNat (a : Word) : aluNot a = BitVec.ofNat 32 (2 ^ 32 - 1 - a.toNat) := by
  apply BitVec.eq_of_toNat_eq
  rw [aluNot, BitVec.toNat_not, BitVec.toNat_ofNat, Nat.mod_eq_of_lt (by omega)]

/-! ### The rules -/

/-- `div` that passes the stages before its rule: a zero divisor raises its fault with nothing written, and
any other stores the quotient (R143, R208). -/
theorem State.Executes.exec_div {o : Operands} (he : s.Executes (.div o)) :
    ∃ l0 l1, s.locate o.s0 = some l0 ∧ s.locate o.s1 = some l1 ∧
      (s.read l1 = 0 → exec (.div o) s = .next (s.raise .divideByZero)) ∧
      (s.read l1 ≠ 0 → ∃ t,
        s.write ((s.locate o.s2).getD l0) (aluDiv (s.read l0) (s.read l1)) = .ok t ∧
        exec (.div o) s = .next (t.setPc (s.pc + 1 + BitVec.ofNat 32 o.nTrailing))) := by
  obtain ⟨l0, l1, e0, e1, hw⟩ := locate_of_arith (s := s) (o := o) he.valid
  have hx : exec (.div o) s = finish s (divOrRaise (s.read l0) (s.read l1) >>= fun r =>
      s.write ((s.locate o.s2).getD l0) r >>= fun t => .ok (t.setPc (s.npc (.div o)))) := by
    rw [exec_eq (.div o) s nofun, execute_of_executes he]
    exact congrArg (finish s) (binaryBody_eq (locs := s.locateAll o) _ e0 e1)
  refine ⟨l0, l1, e0, e1, fun hz => ?_, fun hz => ?_⟩
  · rw [hx, divOrRaise, if_pos hz, error_bind, finish_raise]
  · obtain ⟨t, ht⟩ := s.write_ok hw (aluDiv (s.read l0) (s.read l1))
    refine ⟨t, ht, ?_⟩
    rw [hx, divOrRaise, if_neg hz, ok_bind, ht, ok_bind, finish_ok, State.npc_eq]
    rfl

/-- `not` that passes the stages before its rule stores the complement in slot 1's place, or else in slot
0's, and goes past itself (R149). -/
theorem State.Executes.exec_not {o : Operands} (he : s.Executes (.not o)) :
    ∃ l0 t, s.locate o.s0 = some l0 ∧
      s.write ((s.locate o.s1).getD l0) (aluNot (s.read l0)) = .ok t ∧
      exec (.not o) s = .next (t.setPc (s.pc + 1 + BitVec.ofNat 32 o.nTrailing)) := by
  obtain ⟨l0, e0, hw⟩ := locate_of_not (s := s) (o := o) he.valid
  obtain ⟨t, ht⟩ := s.write_ok hw (aluNot (s.read l0))
  refine ⟨l0, t, e0, ht, ?_⟩
  calc exec (.not o) s
    _ = finish s (notBody (s.npc (.not o)) s (s.locateAll o)) := by
      rw [exec_eq (.not o) s nofun, execute_of_executes he]; rfl
    _ = finish s (s.write ((s.locate o.s1).getD l0) (aluNot (s.read l0)) >>=
          fun t => .ok (t.setPc (s.npc (.not o)))) :=
      congrArg (finish s) (notBody_eq (locs := s.locateAll o) e0)
    _ = .next (t.setPc (s.pc + 1 + BitVec.ofNat 32 o.nTrailing)) := by
      rw [ht, ok_bind, finish_ok, State.npc_eq]; rfl

end Sys2Proof.Machine

namespace Sys2Proof

open Machine

/-- Settles O38: `sub` and `mul` are binary instructions. -/
theorem subAndMulStoreTheResult : Obligations.SubAndMulStoreTheResult := by
  refine fun o s => ⟨fun he => ?_, fun he => ?_⟩
  · obtain ⟨l0, l1, t, e0, e1, ht, hx⟩ := he.exec_binary (f := aluSub) rfl rfl
    rw [aluSub_eq_ofInt] at ht
    exact ⟨l0, l1, t, e0, e1, ht, hx⟩
  · obtain ⟨l0, l1, t, e0, e1, ht, hx⟩ := he.exec_binary (f := aluMul) rfl rfl
    rw [aluMul_eq_ofNat] at ht
    exact ⟨l0, l1, t, e0, e1, ht, hx⟩

/-- Settles O39: the divisor decides between the fault and the quotient. -/
theorem divStoresTheQuotientOrFaults : Obligations.DivStoresTheQuotientOrFaults := by
  intro o s he
  obtain ⟨l0, l1, e0, e1, hzero, hquot⟩ := he.exec_div
  refine ⟨l0, l1, e0, e1, hzero, fun hz => ?_⟩
  rw [← aluDiv_eq_ofNat]
  exact hquot hz

/-- Settles O41: the shifts are binary instructions, and the function of each takes the whole count. -/
theorem shiftsUseTheWholeCount : Obligations.ShiftsUseTheWholeCount := by
  simp only [Obligations.ShiftsUseTheWholeCount, List.forall_mem_cons]
  refine ⟨fun o s he => ?_, fun o s he => ?_, fun _ hp => absurd hp List.not_mem_nil⟩
  · obtain ⟨l0, l1, t, e0, e1, ht, hx⟩ := he.exec_binary (f := aluShl) rfl rfl
    rw [aluShl_eq_ofNat] at ht
    exact ⟨l0, l1, t, e0, e1, ht, hx⟩
  · obtain ⟨l0, l1, t, e0, e1, ht, hx⟩ := he.exec_binary (f := aluShr) rfl rfl
    rw [aluShr_eq_ofNat] at ht
    exact ⟨l0, l1, t, e0, e1, ht, hx⟩

/-- Settles O42: the complement is what is left to all ones. -/
theorem notStoresTheComplement : Obligations.NotStoresTheComplement := by
  intro o s he
  obtain ⟨l0, t, e0, ht, hx⟩ := he.exec_not
  rw [aluNot_eq_ofNat] at ht
  exact ⟨l0, t, e0, ht, hx⟩

end Sys2Proof
end

section
/-! PROOFS. Jumps, calls and returns (43_compare_and_jump.md R161 to R172): what they do once they pass the
stages before their rule, and who sets `J` (10_state.md R23). -/

namespace Sys2Proof.Machine

variable {i : Instr} {s t : State}

/-! ### `call` and `ret` -/

/-- `call` below the stack limit pushes the address past itself and jumps with a landing due; at the limit
it faults (R168). -/
theorem State.Executes.exec_call {o : Operands} (he : s.Executes (.call o)) :
    ∃ l0, s.locate o.s0 = some l0 ∧
      (s.sp.toNat < s.cfg.stackLimit → exec (.call o) s =
        .next ((((s.setStackCell s.sp.toNat (s.pc + 1 + BitVec.ofNat 32 o.nTrailing)).setSp
          (s.sp + 1)).setPc (s.pc + s.read l0)).setJ true)) ∧
      (s.cfg.stackLimit ≤ s.sp.toNat → exec (.call o) s = .next (s.raise .memoryLimit)) := by
  obtain ⟨l0, e0⟩ := locate_of_oneAny (s := s) (o := o) he.valid
  have hx : exec (.call o) s = finish s (pushWord s (s.pc + 1 + BitVec.ofNat 32 o.nTrailing) >>=
      fun t => .ok ((t.setPc (s.pc + s.read l0)).setJ true)) := by
    have hnpc : s.npc (.call o) = s.pc + 1 + BitVec.ofNat 32 o.nTrailing := State.npc_eq _
    rw [exec_eq (.call o) s nofun, execute_of_executes he, ← hnpc]
    exact congrArg (finish s) (callBody_eq (locs := s.locateAll o) e0)
  refine ⟨l0, e0, fun hs => ?_, fun hs => ?_⟩
  · rw [hx, pushWord_of_lt hs, ok_bind, finish_ok]
  · rw [hx, pushWord_of_le hs, error_bind, finish_raise]

/-- `ret` goes to the popped word, and on an empty stack faults (R169, R206). -/
theorem State.Executes.exec_ret {o : Operands} (he : s.Executes (.ret o)) :
    (s.sp ≠ 0 → exec (.ret o) s =
      .next ((s.setSp (s.sp - 1)).setPc (s.stackCell (s.sp.toNat - 1)))) ∧
    (s.sp = 0 → exec (.ret o) s = .next (s.raise .stackUnderflow)) := by
  have hx : exec (.ret o) s = finish s (retBody s (s.locateAll o)) := by
    rw [exec_eq (.ret o) s nofun, execute_of_executes he]; rfl
  refine ⟨fun hs => ?_, fun hs => ?_⟩
  · rw [hx, retBody_of_ne hs, finish_ok, top_index hs]
  · rw [hx, retBody_of_eq hs, finish_raise]

/-- `ret` with no operand passes the stages before its rule when no landing is due. -/
theorem State.executes_ret (hj : s.j = false) : s.Executes (.ret {}) := ⟨hj, rfl, rfl⟩

/-! ### The table of conditions -/

/-- A jump's rule is a function of its condition's truth table. -/
theorem jumpBody_congr {f g : Bool → Bool → Bool} {npc : Word} (h : ∀ z n, f z n = g z n) :
    jumpBody f npc s = jumpBody g npc s := by
  rw [funext₂ h]

/-- Each row of R172's table is an instruction of the common jump rule with the row's condition. -/
theorem rule_of_mem_conditionalJumps : ∀ p ∈ conditionalJumps, ∀ (o : Operands) (s : State),
    (p.1 o).opcode.policy = .oneAny ∧ (p.1 o).operands = o ∧
      rule (p.1 o) s = jumpBody p.2 (s.npc (p.1 o)) s := by
  simp only [conditionalJumps, List.forall_mem_cons]
  refine ⟨?_, ?_, ?_, ?_, ?_, ?_, fun _ hp => absurd hp List.not_mem_nil⟩
  · exact fun o s => ⟨rfl, rfl, jumpBody_congr (f := condJe) (by decide)⟩
  · exact fun o s => ⟨rfl, rfl, jumpBody_congr (f := condJne) (by decide)⟩
  · exact fun o s => ⟨rfl, rfl, jumpBody_congr (f := condJl) (by decide)⟩
  · exact fun o s => ⟨rfl, rfl, jumpBody_congr (f := condJnl) (by decide)⟩
  · exact fun o s => ⟨rfl, rfl, jumpBody_congr (f := condJle) (by decide)⟩
  · exact fun o s => ⟨rfl, rfl, jumpBody_congr (f := condJnle) (by decide)⟩

/-! ### Who sets `J` -/

theorem State.write_j {l : Loc} {v : Word} (h : s.write l v = .ok t) : t.j = s.j := by
  obtain ⟨-, -, -, -, -, -, -, hj, -⟩ := State.write_other h
  exact hj

/-- Only the jumps, `call` and `entry` write `J` (R23). -/
theorem Effect.j_eq (h : Effect i s t)
    (hn : i.opcode ∉ [.jmp, .je, .jl, .jle, .jne, .jnl, .jnle, .call, .entry]) : t.j = s.j := by
  cases h with
  | landed hop => simp [hop] at hn
  | called _ hop => simp [hop] at hn
  | jumped _ hop => exact absurd (List.mem_append_left [.call, .entry] hop :) hn
  | stored _ _ _ _ _ _ hw => exact (State.write_j hw :)
  | popped _ _ _ _ _ _ _ hw => exact (State.write_j hw :)
  | allocated _ _ _ _ _ _ _ _ _ hw => exact (State.write_j hw :)
  | swapped _ _ _ _ _ _ _ _ _ hw0 hw1 => exact (State.write_j hw1).trans (State.write_j hw0)
  | _ => rfl

/-- An instruction but `entry` that ends with the core running has passed the stages before its rule. -/
theorem executes_of_running (hn : i.opcode ≠ .entry) (h : exec i s = .next t)
    (ht : t.status = .running) : s.Executes i := by
  rw [exec_eq i s hn] at h
  rcases execute_cases h with ⟨c, rfl⟩ | ⟨he, -⟩
  · cases ht
  · exact he

/-- A jump that the core runs on after sets `J` exactly when its condition holds (R170). -/
theorem jump_j_iff {cond : Bool → Bool → Bool} (hp : i.opcode.policy = .oneAny)
    (hr : rule i s = jumpBody cond (s.npc i) s) (hj : s.j = false) (h : exec i s = .next t)
    (ht : t.status = .running) : t.j = true ↔ cond s.z s.n = true := by
  have hn : i.opcode ≠ .entry := fun h => by rw [h] at hp; cases hp
  obtain ⟨l0, -, hx⟩ := (executes_of_running hn h ht).exec_jump hp hr
  rw [h, Host.Outcome.next.injEq] at hx
  rw [hx]
  split <;> simp_all

/-- `call` that the core runs on after has set `J` (R168). -/
theorem call_j {o : Operands} (h : exec (.call o) s = .next t) (ht : t.status = .running) :
    t.j = true := by
  obtain ⟨l0, -, hlt, hge⟩ := (executes_of_running (i := .call o) nofun h ht).exec_call
  rcases Nat.lt_or_ge s.sp.toNat s.cfg.stackLimit with hs | hs
  · rw [hlt hs] at h; cases h; rfl
  · rw [hge hs] at h; cases h; cases ht

/-- Whether an instruction that the core runs on after sets `J`, from the flags (R161 to R168). -/
def setsJ (i : Instr) (z n : Bool) : Bool :=
  match i with
  | .jmp _ => condJmp z n
  | .je _ => condJe z n
  | .jl _ => condJl z n
  | .jle _ => condJle z n
  | .jne _ => condJne z n
  | .jnl _ => condJnl z n
  | .jnle _ => condJnle z n
  | .call _ => true
  | _ => false

/-- `setsJ` is the table of R172, with `jmp` and `call` added. -/
theorem setsJ_iff (i : Instr) (z n : Bool) :
    setsJ i z n = true ↔ i.opcode = .jmp ∨ i.opcode = .call ∨
      ∃ p ∈ conditionalJumps, p.1 i.operands = i ∧ p.2 z n = true := by
  cases i <;>
    simp [setsJ, conditionalJumps, Instr.opcode, Instr.operands, condJmp, condJe, condJl, condJle,
      condJne, condJnl, condJnle]

/-- What `setsJ` says is what happens. -/
theorem j_eq_setsJ (hj : s.j = false) (h : exec i s = .next t) (ht : t.status = .running) :
    t.j = setsJ i s.z s.n := by
  cases i with
  | jmp o => exact Bool.eq_iff_iff.mpr (jump_j_iff (cond := condJmp) rfl rfl hj h ht)
  | je o => exact Bool.eq_iff_iff.mpr (jump_j_iff (cond := condJe) rfl rfl hj h ht)
  | jl o => exact Bool.eq_iff_iff.mpr (jump_j_iff (cond := condJl) rfl rfl hj h ht)
  | jle o => exact Bool.eq_iff_iff.mpr (jump_j_iff (cond := condJle) rfl rfl hj h ht)
  | jne o => exact Bool.eq_iff_iff.mpr (jump_j_iff (cond := condJne) rfl rfl hj h ht)
  | jnl o => exact Bool.eq_iff_iff.mpr (jump_j_iff (cond := condJnl) rfl rfl hj h ht)
  | jnle o => exact Bool.eq_iff_iff.mpr (jump_j_iff (cond := condJnle) rfl rfl hj h ht)
  | call o => exact call_j h ht
  | entry o => cases h; rfl
  | _ => exact ((exec_effect h).j_eq (by simp [Instr.opcode])).trans hj

end Sys2Proof.Machine

namespace Sys2Proof

open Machine

/-- Settles O30: `setsJ` says who sets `J`, and it is the spec's table. -/
theorem jIsSetByTakenJumpsAndCalls : Obligations.JIsSetByTakenJumpsAndCalls := by
  intro i s t hj h ht
  rw [j_eq_setsJ hj h ht]
  exact setsJ_iff i s.z s.n

/-- Settles O45: the rule of each conditional jump is the common one with the table's condition. -/
theorem conditionalJumpsFollowTheTable : Obligations.ConditionalJumpsFollowTheTable := by
  intro p hp o s he
  obtain ⟨hpol, hops, hrule⟩ := rule_of_mem_conditionalJumps p hp o s
  obtain ⟨l0, e0, hx⟩ := he.exec_jump hpol hrule
  rw [hops] at e0 hx
  refine ⟨l0, e0, ?_⟩
  rw [← aluAdd_eq_ofNat]
  exact hx

/-- Settles O46: the target is the sum of `pc` and the operand, and the limit decides the push. -/
theorem callPushesTheReturnAddress : Obligations.CallPushesTheReturnAddress := by
  intro o s he
  obtain ⟨l0, e0, hlt, hge⟩ := he.exec_call
  refine ⟨l0, e0, fun hs => ?_, hge⟩
  rw [← aluAdd_eq_ofNat]
  exact hlt hs

/-- Settles O47: `ret` runs with `J = 0` and leaves it. -/
theorem retPopsTheProgramCounter : Obligations.RetPopsTheProgramCounter := by
  intro o s he
  obtain ⟨hne, heq⟩ := he.exec_ret
  refine ⟨fun hs => ?_, heq⟩
  rw [hne hs, ← he.notLanding]
  rfl

/-- Settles O48: the `call` that ran on has pushed the address past itself, and `ret` finds it in the cell
below `sp`. -/
theorem retUndoesCall : Obligations.RetUndoesCall := by
  intro o s t u hi he hr hx ht hj hsp hcell
  obtain ⟨l0, -, hlt, hge⟩ := he.exec_call
  rcases Nat.lt_or_ge s.sp.toNat s.cfg.stackLimit with hs | hs
  · rw [hlt hs] at hx
    cases hx
    have hsum : u.sp.toNat = s.sp.toNat + 1 := by
      rw [hsp]
      exact hi.toNat_sp_add hs
    have hne : u.sp ≠ 0 := fun h => by simp [h] at hsum
    obtain ⟨hret, -⟩ := (State.executes_ret hj).exec_ret
    refine ⟨_, hret hne, ?_, ?_, hj⟩
    · rw [State.setPc_pc, hsum, Nat.add_sub_cancel, hcell]
      exact Memory.read_write hi.stackWf _ _
    · rw [State.setPc_sp, State.setSp_sp, hsp]
      exact BitVec.add_sub_cancel _ _
  · rw [hge hs] at hx
    cases hx
    cases ht

end Sys2Proof
end

section
/-! PROOFS. `push`, `pop`, `alloc` and `free` (44_stack_and_heap.md R180 to R186), `hlt` and the expansion
opcodes (45_system.md R191 to R196). -/

namespace Sys2Proof.Machine

variable {i : Instr} {s t u : State}

/-! ### The rules -/

/-- `push` below the stack limit writes its operand to the first free cell; at the limit it faults
(R180). -/
theorem State.Executes.exec_push {o : Operands} (he : s.Executes (.push o)) :
    ∃ l0, s.locate o.s0 = some l0 ∧
      (s.sp.toNat < s.cfg.stackLimit → exec (.push o) s =
        .next (((s.setStackCell s.sp.toNat (s.read l0)).setSp (s.sp + 1)).setPc
          (s.pc + 1 + BitVec.ofNat 32 o.nTrailing))) ∧
      (s.cfg.stackLimit ≤ s.sp.toNat → exec (.push o) s = .next (s.raise .memoryLimit)) := by
  obtain ⟨l0, e0⟩ := locate_of_oneAny (s := s) (o := o) he.valid
  have hx : exec (.push o) s =
      finish s (pushWord s (s.read l0) >>= fun t => .ok (t.setPc (s.npc (.push o)))) := by
    rw [exec_eq (.push o) s nofun, execute_of_executes he]
    exact congrArg (finish s) (pushBody_eq (locs := s.locateAll o) e0)
  refine ⟨l0, e0, fun hs => ?_, fun hs => ?_⟩
  · rw [hx, pushWord_of_lt hs, ok_bind, finish_ok, State.npc_eq]; rfl
  · rw [hx, pushWord_of_le hs, error_bind, finish_raise]

/-- `pop` writes the top of the stack to its destination, located with the old `sp`; on an empty stack it
faults (R181, R206). -/
theorem State.Executes.exec_pop {o : Operands} (he : s.Executes (.pop o)) :
    ∃ l0, s.locate o.s0 = some l0 ∧
      (s.sp ≠ 0 → ∃ t, (s.setSp (s.sp - 1)).write l0 (s.stackCell (s.sp.toNat - 1)) = .ok t ∧
        exec (.pop o) s = .next (t.setPc (s.pc + 1 + BitVec.ofNat 32 o.nTrailing))) ∧
      (s.sp = 0 → exec (.pop o) s = .next (s.raise .stackUnderflow)) := by
  obtain ⟨l0, e0, hw⟩ := locate_of_pop (s := s) (o := o) he.valid
  have hx : exec (.pop o) s = finish s (popBody (s.npc (.pop o)) s (s.locateAll o)) := by
    rw [exec_eq (.pop o) s nofun, execute_of_executes he]; rfl
  refine ⟨l0, e0, fun hs => ?_, fun hs => ?_⟩
  · obtain ⟨t, ht⟩ := (s.setSp (s.sp - 1)).write_ok hw (s.stackCell (s.sp.toNat - 1))
    refine ⟨t, ht, ?_⟩
    rw [hx, popBody_of_ne (locs := s.locateAll o) e0 hs, top_index hs, ht, ok_bind, finish_ok,
      State.npc_eq]
    rfl
  · rw [hx, popBody_of_eq (locs := s.locateAll o) e0 hs, finish_raise]

/-- `alloc` within the heap moves the watermark by the size and stores the old one; past the heap's limit it
faults (R184). -/
theorem State.Executes.exec_alloc {o : Operands} (he : s.Executes (.alloc o)) :
    ∃ l0 l1, s.locate o.s0 = some l0 ∧ s.locate o.s1 = some l1 ∧
      (s.hwm.toNat + (s.read l0).toNat ≤ s.cfg.heapLimit →
        ∃ t, (s.setHwm (s.hwm + s.read l0)).write l1 s.hwm = .ok t ∧
          exec (.alloc o) s = .next (t.setPc (s.pc + 1 + BitVec.ofNat 32 o.nTrailing))) ∧
      (s.cfg.heapLimit < s.hwm.toNat + (s.read l0).toNat →
        exec (.alloc o) s = .next (s.raise .memoryLimit)) := by
  obtain ⟨l0, l1, e0, e1, hw⟩ := locate_of_alloc (s := s) (o := o) he.valid
  have hx : exec (.alloc o) s = finish s (allocBody (s.npc (.alloc o)) s (s.locateAll o)) := by
    rw [exec_eq (.alloc o) s nofun, execute_of_executes he]; rfl
  rw [allocBody_eq (locs := s.locateAll o) e0 e1] at hx
  refine ⟨l0, l1, e0, e1, fun hle => ?_, fun hlt => ?_⟩
  · obtain ⟨t, ht⟩ := (s.setHwm (s.hwm + s.read l0)).write_ok hw s.hwm
    refine ⟨t, ht, ?_⟩
    rw [hx, if_neg (Nat.not_lt.mpr hle), ht, ok_bind, finish_ok, State.npc_eq]
    rfl
  · rw [hx, if_pos hlt, finish_raise]

/-! ### Opcodes that are never valid -/

/-- An opcode of policy INVALID faults whatever its operands are (R103, R192 to R196). -/
theorem exec_of_policy_invalid (hp : i.opcode.policy = .invalid) (s : State) :
    (s.j = false → exec i s = .next (s.raise .invalidInstruction)) ∧
      (s.j = true → exec i s = .next (s.raise .badLanding)) := by
  have hn : i.opcode ≠ .entry := fun h => by rw [h] at hp; cases hp
  have hv : i.validate = false := by rw [Instr.validate, hp]; rfl
  exact ⟨fun hj => exec_of_invalid hn hj hv, exec_of_landing hn⟩

/-! ### Allocated ranges -/

/-- An instruction after which the core runs was run by a running core. -/
theorem running_of_exec (h : exec i s = .next t) (ht : t.status = .running) :
    s.status = .running := by
  rcases (exec_effect h).status_cases with ⟨c, rfl⟩ | hst | ⟨-, -, rfl⟩
  · cases ht
  · rw [← hst, ht]
  · cases ht

/-- An `alloc` that the core runs on after has stored its base, and the watermark is past its range
(R184). -/
theorem State.Inv.of_alloc {o : Operands} {l0 l1 : Loc} (hi : s.Inv)
    (e0 : s.locate o.s0 = some l0) (e1 : s.locate o.s1 = some l1)
    (h : Machine.exec (.alloc o) s = .next t) (ht : t.status = .running) :
    t.Inv ∧ t.read l1 = s.hwm ∧ t.hwm.toNat = s.hwm.toNat + (s.read l0).toNat := by
  have he := executes_of_running (i := .alloc o) nofun h ht
  obtain ⟨k0, k1, f0, f1, hle, hgt⟩ := he.exec_alloc
  cases f0.symm.trans e0
  cases f1.symm.trans e1
  refine ⟨hi.exec (running_of_exec h ht) h, ?_⟩
  rcases Nat.lt_or_ge s.cfg.heapLimit (s.hwm.toNat + (s.read l0).toNat) with hlim | hlim
  · rw [hgt hlim, Host.Outcome.next.injEq] at h
    rw [← h] at ht
    cases ht
  · obtain ⟨u, hw, hx⟩ := hle hlim
    rw [h, Host.Outcome.next.injEq] at hx
    obtain ⟨-, -, -, ⟨-, hmax⟩, -⟩ := hi.cfgOk
    have hsum : (s.hwm + s.read l0).toNat = s.hwm.toNat + (s.read l0).toNat :=
      BitVec.toNat_add_of_lt (by omega)
    have hmoved : (s.setHwm (s.hwm + s.read l0)).Inv := hi.setHwm (hsum ▸ hlim)
    rw [hx, State.setPc_read, State.setPc_hwm, State.write_hwm hw, State.setHwm_hwm]
    exact ⟨hmoved.read_write_self hw, hsum⟩

theorem step_hwm_le (hi : s.Inv) (h : step s = .next t) : s.hwm.toNat ≤ t.hwm.toNat := by
  rcases step_cases h with ⟨-, rfl⟩ | ⟨-, e, -, rfl⟩ | ⟨-, i, rest, -, hx⟩
  · exact le_refl _
  · exact le_refl _
  · exact (exec_effect hx).hwm_le hi

/-- The invariant, and a watermark that only rises, along any number of steps (R24). -/
theorem run_hwm_le {k : Nat} (hi : s.Inv) (h : Host.Core.run core k s = .next t) :
    t.Inv ∧ s.hwm.toNat ≤ t.hwm.toNat := by
  induction k generalizing s with
  | zero =>
    cases h
    exact ⟨hi, le_refl _⟩
  | succ k ih =>
    obtain ⟨s', hs⟩ := step_next s
    have hcore : core.step s = .next s' := hs
    simp only [Host.Core.run, hcore] at h
    obtain ⟨ht, hle⟩ := ih (hi.step hs) h
    exact ⟨ht, (step_hwm_le hi hs).trans hle⟩

end Sys2Proof.Machine

namespace Sys2Proof

open Machine

/-- Settles O49: the limit decides the push of the operand, read with the old `sp`. -/
theorem pushWritesTheFirstFreeCell : Obligations.PushWritesTheFirstFreeCell :=
  fun _ _ he => he.exec_push

/-- Settles O50: an empty stack decides between the fault and the write to the destination. -/
theorem popWritesTheTopOfStack : Obligations.PopWritesTheTopOfStack :=
  fun _ _ he => he.exec_pop

/-- Settles O52: the sum that decides is unbounded, and within the limit it is the new watermark. -/
theorem allocReturnsTheOldWatermark : Obligations.AllocReturnsTheOldWatermark := by
  intro o s he
  obtain ⟨l0, l1, e0, e1, hle, hgt⟩ := he.exec_alloc
  refine ⟨l0, l1, e0, e1, fun h => ?_, hgt⟩
  rw [BitVec.ofNat_add, BitVec.ofNat_toNat, BitVec.ofNat_toNat, BitVec.setWidth_eq,
    BitVec.setWidth_eq]
  exact hle h

/-- Settles O53: the first range ends at the watermark after it, which the second base is not below. -/
theorem allocatedRangesNeverOverlap : Obligations.AllocatedRangesNeverOverlap := by
  intro o o' s t u v k l0 l1 m0 m1 hi _ e0 e1 hx ht hrun f0 f1 hy hv
  obtain ⟨hit, hbase, hend⟩ := hi.of_alloc e0 e1 hx ht
  obtain ⟨hiu, hle⟩ := run_hwm_le hit hrun
  obtain ⟨-, hbase', -⟩ := hiu.of_alloc f0 f1 hy hv
  refine ⟨hbase, hbase', fun a ⟨⟨_, h⟩, h', _⟩ => ?_⟩
  omega

/-- Settles O54: `free` resolves its operand and raises its fault. -/
theorem freeRaisesUnimplemented : Obligations.FreeRaisesUnimplemented := by
  intro o s he
  rw [exec_eq (.free o) s nofun, execute_of_executes he]
  rfl

/-- Settles O56: `hlt`'s rule sets `status` and nothing else. -/
theorem hltOnlyHalts : Obligations.HltOnlyHalts := by
  intro o s he
  rw [exec_eq (.hlt o) s nofun, execute_of_executes he]
  rfl

/-- Settles O57: no expansion opcode is valid, and none may be landed on. -/
theorem expansionOpcodesAreInvalid : Obligations.ExpansionOpcodesAreInvalid := by
  intro o s
  simp only [List.forall_mem_cons]
  exact ⟨exec_of_policy_invalid rfl s, exec_of_policy_invalid rfl s, exec_of_policy_invalid rfl s,
    exec_of_policy_invalid rfl s, exec_of_policy_invalid rfl s, fun _ h => absurd h List.not_mem_nil⟩

end Sys2Proof
end

section
/-! PROOFS. The frames (10_state.md R12, R19, R22 to R24): every effect of Laws/Exec.lean leaves all but
its instruction's destinations and own fields as they were. -/

namespace Sys2Proof.Machine

variable {i : Instr} {s t : State} {l l0 : Loc} {v : Word}

/-! ### Updates that no place sees -/

theorem State.setSp_read (s : State) (v : Word) (l : Loc) : (s.setSp v).read l = s.read l := by
  cases l <;> rfl

theorem State.setJ_read (s : State) (b : Bool) (l : Loc) : (s.setJ b).read l = s.read l := by
  cases l <;> rfl

theorem State.setStatus_read (s : State) (x : Status) (l : Loc) :
    (s.setStatus x).read l = s.read l := by
  cases l <;> rfl

/-! ### Places -/

/-- A push writes the cell at the old `sp`, which is its destination (R168, R180). -/
theorem State.destinations_of_push (hop : i.opcode = .push ∨ i.opcode = .call) :
    s.destinations i = [.stackCell s.sp.toNat] := by
  cases i with
  | push o => rfl
  | call o => rfl
  | _ => rcases hop with h | h <;> cases h

theorem State.read_push (hop : i.opcode = .push ∨ i.opcode = .call) (hl : l ∉ s.destinations i) :
    (s.setStackCell s.sp.toNat v).read l = s.read l := by
  rw [State.destinations_of_push hop, List.mem_singleton] at hl
  exact State.read_write_ne (l0 := .stackCell s.sp.toNat) rfl hl

/-- Every place but the destinations reads as before. -/
theorem Effect.read_eq (h : Effect i s t) (hl : l ∉ s.destinations i) : t.read l = s.read l := by
  cases h with
  | raised c => exact s.setStatus_read _ l
  | landed => rw [State.setPc_read, State.setJ_read]
  | stored _ _ _ _ hd _ hw =>
    rw [hd, List.mem_singleton] at hl
    rw [State.setPc_read, State.read_write_ne hw hl]
  | compared => rw [State.setPc_read, (State.setFlags_blind _ _).read]
  | jumped => rw [State.setJ_read, State.setPc_read]
  | notTaken => rw [State.setPc_read]
  | called _ hop =>
    rw [State.setJ_read, State.setPc_read, State.setSp_read, State.read_push (.inr hop) hl]
  | returned => rw [State.setPc_read, State.setSp_read]
  | pushed _ hop => rw [State.setPc_read, State.setSp_read, State.read_push (.inl hop) hl]
  | popped _ _ _ _ _ hd _ hw =>
    rw [hd, List.mem_singleton] at hl
    rw [State.setPc_read, State.read_write_ne hw hl, State.setSp_read]
  | swapped _ _ _ _ _ _ hd _ _ hw0 hw1 =>
    rw [hd, List.mem_pair, not_or] at hl
    rw [State.setPc_read, State.read_write_ne hw1 hl.2, State.read_write_ne hw0 hl.1]
  | allocated _ _ _ _ _ _ _ hd _ hw =>
    rw [hd, List.mem_singleton] at hl
    rw [State.setPc_read, State.read_write_ne hw hl, (State.setHwm_blind _).read]
  | halted => exact s.setStatus_read _ l

/-! ### The stack pointer -/

theorem State.write_sp {u : State} (h : s.write l v = .ok u) : u.sp = s.sp := by
  obtain ⟨-, -, -, hsp, -⟩ := State.write_other h
  exact hsp

/-- Only `push`, `pop`, `call` and `ret` move `sp` (R17). -/
theorem Effect.sp_eq (h : Effect i s t) (hn : i.opcode ∉ [.push, .pop, .call, .ret]) :
    t.sp = s.sp := by
  cases h with
  | called _ hop => simp [hop] at hn
  | returned _ hop => simp [hop] at hn
  | pushed _ hop => simp [hop] at hn
  | popped _ hop => simp [hop] at hn
  | stored _ _ _ _ _ _ hw => exact (State.write_sp hw :)
  | allocated _ _ _ _ _ _ _ _ _ hw => exact (State.write_sp hw :)
  | swapped _ _ _ _ _ _ _ _ _ hw0 hw1 => exact (State.write_sp hw1).trans (State.write_sp hw0)
  | _ => rfl

/-! ### The frame of every instruction -/

theorem Effect.hwm_eq (h : Effect i s t) (ha : i.opcode ≠ .alloc) : t.hwm = s.hwm := by
  rcases h.hwm_cases with e | ⟨ha', -⟩
  · exact e
  · exact absurd ha' ha

theorem Effect.status_frame (h : Effect i s t) :
    t.status = s.status ∨ (∃ c, t.status = .faulted c) ∨ (i.opcode = .hlt ∧ t.status = .halted) := by
  rcases h.status_cases with ⟨c, rfl⟩ | hst | ⟨hop, -, rfl⟩
  · exact .inr (.inl ⟨c, rfl⟩)
  · exact .inl hst
  · exact .inr (.inr ⟨hop, rfl⟩)

/-- Whatever effect an instruction has, it keeps its frame. -/
theorem Effect.frame (h : Effect i s t) : Frame i s t where
  regs r := h.read_eq (l := .reg r)
  stack a := h.read_eq (l := .stackCell a)
  heap a := h.read_eq (l := .heapCell a)
  prog := h.frozen.1
  cfg := h.frozen.2
  sp := h.sp_eq
  hwm := h.hwm_eq
  flags := h.flags_eq
  j := h.j_eq
  status := h.status_frame

end Sys2Proof.Machine

namespace Sys2Proof

open Machine

/-- Settles O58: the destination is the place that the effect `stored` writes. -/
theorem frameOfArithmetic : Obligations.FrameOfArithmetic := fun _ _ _ _ _ h => (exec_effect h).frame

/-- Settles O59: the destinations are the places that the effects `pushed`, `called`, `popped`, `swapped`
and `allocated` write. -/
theorem frameOfStackAndHeap : Obligations.FrameOfStackAndHeap :=
  fun _ _ _ _ _ h => (exec_effect h).frame

/-- Settles O60: these instructions have no destination, so the frame covers every place. -/
theorem frameOfTheRest : Obligations.FrameOfTheRest := fun _ _ _ _ _ h => (exec_effect h).frame

end Sys2Proof
end
